-- ==== Sys2Proof/Word.lean ====
section
/-! DEFINITION. The widths of the hardware (00_scope.md R8). -/

namespace Sys2Proof

/-- A general register, the pc, an ALU operand or result, an address, an instruction word (00_scope.md R8). -/
abbrev Word := BitVec 32

/-- One byte of the memory window (20_memory.md R35). -/
abbrev Byte := BitVec 8

/-- A general register's index, a 5-bit field of the instruction word (00_scope.md R8). -/
abbrev RegIdx := BitVec 5

end Sys2Proof
end

