-- ==== Sys2Proof/Config.lean ====
section
/-! DEFINITION. What an implementation fixes: the configuration record of 00_scope.md R9, its reference values, and the
constraints of R10. The spec leaves no value free (93_implementation_defined.md, end of section 1), so there is no
free value here. -/

namespace Sys2Proof

/-- Which SYSTEM words count as an environment call (45_misc_system.md R158; 92_eei_decisions.md D5). -/
inductive EcallMatch where
  /-- every SYSTEM word whose funct3 is 000 -/
  | funct3Only
  /-- only the word 0x00000073 -/
  | exact
deriving DecidableEq, Repr

/-- The configuration parameters of 00_scope.md R9, in the table's order. -/
structure Config where
  /-- `MEM_BASE`: lowest valid byte address -/
  memBase : Nat
  /-- `MEM_SIZE`: number of bytes in the window -/
  memSize : Nat
  /-- `ENTRY`: pc the driver sets before the first step -/
  entry : Word
  /-- `SENTINEL_IMM` as its 12 I-immediate bits, so that its range −2048..2047 (R10) holds by type -/
  sentinelImm : BitVec 12
  /-- `SENTINEL_FUNCT3` -/
  sentinelFunct3 : BitVec 3
  /-- `REPORT_REG`: general register inspected by the environment call -/
  reportReg : RegIdx
  /-- `PASS_VALUE` -/
  passValue : Word
  /-- `INFO_VALUE` -/
  infoValue : Word
  /-- `FAIL_ABOVE`: report values above this, unsigned, are a GuestTestFailure -/
  failAbove : Word
  /-- `ECALL_MATCH` -/
  ecallMatch : EcallMatch
deriving DecidableEq, Repr

/-- The reference configuration (00_scope.md R9; unaudited literals, 92_eei_decisions.md D15: UNVERIFIED, log entry
6). DESIGN CHOICE, log entries 6 and 7: the machine `step` runs at these values. -/
def Config.reference : Config where
  memBase := 0x80000000
  memSize := 16384
  entry := 0x80000000#32
  sentinelImm := 0xC00#12
  sentinelFunct3 := 0b001#3
  reportReg := 3#5
  passValue := 0#32
  infoValue := 1#32
  failAbove := 1#32
  ecallMatch := .funct3Only

/-- The constraints a configuration must meet for the spec's rules to hold as stated (00_scope.md R10). -/
structure Config.Valid (c : Config) : Prop where
  size_ge : 4 ≤ c.memSize
  top_le : c.memBase + c.memSize ≤ 2 ^ 32
  reportReg_ne : c.reportReg ≠ 0#5
  report_named : ∀ r : Word, r ≤ c.failAbove → r = c.passValue ∨ r = c.infoValue

end Sys2Proof
end

