-- ==== Sys2Proof/Syntax.lean ====
section
/-! DEFINITION. The instructions: one constructor per row of opcode_table.json.

Every constructor carries ALL the bits its row leaves open, those the hardware ignores (30_encoding.md R77) included, so
that a word is one instruction and an instruction one word. Field names are the spec's; the order of the arguments is the
assembler's (R83), the ignored bits last. An offset of a B or J word is kept with its bit 0, which is 0 in every
well-formed instruction (R64, R66). -/

namespace Sys2Proof

/-- The eleven opcode classes (30_encoding.md R68; 00_scope.md R16). -/
inductive OpcodeClass where
  | lui | auipc | jal | jalr | branch | opImm | op | load | store | miscMem | system
deriving DecidableEq, Repr

/-- The instructions, one constructor per row of opcode_table.json, in the table's order. -/
inductive Instr where
  /-- LUI (41_upper_immediate.md R98); `imm20` is inst[31:12] -/
  | lui (rd : RegIdx) (imm20 : BitVec 20)
  /-- AUIPC (R99) -/
  | auipc (rd : RegIdx) (imm20 : BitVec 20)
  /-- JAL (42_control_transfer.md R102) -/
  | jal (rd : RegIdx) (offset : BitVec 21)
  /-- JALR (R103); funct3 is not examined (30_encoding.md R77) -/
  | jalr (rd rs1 : RegIdx) (imm : BitVec 12) (funct3 : BitVec 3)
  /-- BEQ (R104) -/
  | beq (rs1 rs2 : RegIdx) (offset : BitVec 13)
  /-- BNE (R105) -/
  | bne (rs1 rs2 : RegIdx) (offset : BitVec 13)
  /-- BLT (R106) -/
  | blt (rs1 rs2 : RegIdx) (offset : BitVec 13)
  /-- BGE (R107) -/
  | bge (rs1 rs2 : RegIdx) (offset : BitVec 13)
  /-- BLTU (R108) -/
  | bltu (rs1 rs2 : RegIdx) (offset : BitVec 13)
  /-- BGEU (R109) -/
  | bgeu (rs1 rs2 : RegIdx) (offset : BitVec 13)
  /-- BRANCH-INVALID-010 (R110) -/
  | branchInvalid010 (rs1 rs2 : RegIdx) (offset : BitVec 13)
  /-- BRANCH-INVALID-011 (R110) -/
  | branchInvalid011 (rs1 rs2 : RegIdx) (offset : BitVec 13)
  /-- SUB (43_integer_alu.md R126) -/
  | sub (rd rs1 rs2 : RegIdx)
  /-- ADD (R125); any funct7 but 0100000 -/
  | add (rd rs1 rs2 : RegIdx) (funct7 : BitVec 7)
  /-- SLL (R127); funct7 ignored -/
  | sll (rd rs1 rs2 : RegIdx) (funct7 : BitVec 7)
  /-- SLT (R128); funct7 ignored -/
  | slt (rd rs1 rs2 : RegIdx) (funct7 : BitVec 7)
  /-- SLTU (R129); funct7 ignored -/
  | sltu (rd rs1 rs2 : RegIdx) (funct7 : BitVec 7)
  /-- XOR (R130); funct7 ignored -/
  | xor (rd rs1 rs2 : RegIdx) (funct7 : BitVec 7)
  /-- SRA (R132) -/
  | sra (rd rs1 rs2 : RegIdx)
  /-- SRL (R131); any funct7 but 0100000 -/
  | srl (rd rs1 rs2 : RegIdx) (funct7 : BitVec 7)
  /-- OR (R133); funct7 ignored -/
  | or (rd rs1 rs2 : RegIdx) (funct7 : BitVec 7)
  /-- AND (R134); funct7 ignored -/
  | and (rd rs1 rs2 : RegIdx) (funct7 : BitVec 7)
  /-- ADDI (R135) -/
  | addi (rd rs1 : RegIdx) (imm : BitVec 12)
  /-- SLTI (R136) -/
  | slti (rd rs1 : RegIdx) (imm : BitVec 12)
  /-- SLTIU (R137) -/
  | sltiu (rd rs1 : RegIdx) (imm : BitVec 12)
  /-- XORI (R138) -/
  | xori (rd rs1 : RegIdx) (imm : BitVec 12)
  /-- ORI (R139) -/
  | ori (rd rs1 : RegIdx) (imm : BitVec 12)
  /-- ANDI (R140) -/
  | andi (rd rs1 : RegIdx) (imm : BitVec 12)
  /-- SLLI (R141); `funct7` is imm_i[11:5], ignored, and `shamt` is imm_i[4:0] -/
  | slli (rd rs1 : RegIdx) (shamt : BitVec 5) (funct7 : BitVec 7)
  /-- SRAI (R143); imm_i[11:5] is 0100000 -/
  | srai (rd rs1 : RegIdx) (shamt : BitVec 5)
  /-- SRLI (R142); any imm_i[11:5] but 0100000 -/
  | srli (rd rs1 : RegIdx) (shamt : BitVec 5) (funct7 : BitVec 7)
  /-- LB (44_load_store.md R145) -/
  | lb (rd rs1 : RegIdx) (imm : BitVec 12)
  /-- LH (R146) -/
  | lh (rd rs1 : RegIdx) (imm : BitVec 12)
  /-- LW (R147) -/
  | lw (rd rs1 : RegIdx) (imm : BitVec 12)
  /-- LBU (R148) -/
  | lbu (rd rs1 : RegIdx) (imm : BitVec 12)
  /-- LHU (R149) -/
  | lhu (rd rs1 : RegIdx) (imm : BitVec 12)
  /-- LOAD-INVALID-011 (R150) -/
  | loadInvalid011 (rd rs1 : RegIdx) (imm : BitVec 12)
  /-- LOAD-INVALID-110 (R150) -/
  | loadInvalid110 (rd rs1 : RegIdx) (imm : BitVec 12)
  /-- LOAD-INVALID-111 (R150) -/
  | loadInvalid111 (rd rs1 : RegIdx) (imm : BitVec 12)
  /-- SB (R151) -/
  | sb (rs2 rs1 : RegIdx) (imm : BitVec 12)
  /-- SH (R152) -/
  | sh (rs2 rs1 : RegIdx) (imm : BitVec 12)
  /-- SW (R153) -/
  | sw (rs2 rs1 : RegIdx) (imm : BitVec 12)
  /-- STORE-INVALID-011 (R154) -/
  | storeInvalid011 (rs2 rs1 : RegIdx) (imm : BitVec 12)
  /-- STORE-INVALID-100 (R154) -/
  | storeInvalid100 (rs2 rs1 : RegIdx) (imm : BitVec 12)
  /-- STORE-INVALID-101 (R154) -/
  | storeInvalid101 (rs2 rs1 : RegIdx) (imm : BitVec 12)
  /-- STORE-INVALID-110 (R154) -/
  | storeInvalid110 (rs2 rs1 : RegIdx) (imm : BitVec 12)
  /-- STORE-INVALID-111 (R154) -/
  | storeInvalid111 (rs2 rs1 : RegIdx) (imm : BitVec 12)
  /-- FENCE: every MISC-MEM word (45_misc_system.md R156); all its fields ignored -/
  | fence (rd rs1 : RegIdx) (imm : BitVec 12) (funct3 : BitVec 3)
  /-- SENTINEL (R157); rd and rs1 are not examined, funct3 and the immediate are the configuration's -/
  | sentinel (rd rs1 : RegIdx)
  /-- ECALL (R158, R159): a SYSTEM word of funct3 000; its other bits are not examined under `funct3_only` -/
  | ecall (rd rs1 : RegIdx) (imm : BitVec 12)
  /-- SYSTEM-NOP: every other SYSTEM word (R161) -/
  | systemNop (rd rs1 : RegIdx) (imm : BitVec 12) (funct3 : BitVec 3)
  /-- DECODE-FAILURE: a word whose opcode is no class (30_encoding.md R69) -/
  | decodeFailure (word : Word)
deriving DecidableEq, Repr

end Sys2Proof
end

