-- ==== Sys2Proof/Decode.lean ====
section
/-! DEFINITION. The decode half of the fetch_decode_unit (30_encoding.md), total on every word and every byte string, and
the encoder written from the same tables.

The opcode values, funct3 values and immediate layouts are the standard RV32I ones the spec supplies from general knowledge
(92_eei_decisions.md D2). UNVERIFIED, log entry 10. -/

namespace Sys2Proof

/-! ## The six fields and the raw immediates of a word (R60, R61) -/

/-- `inst[6:0]` (R60). -/
def opcodeOf (w : Word) : BitVec 7 := w.extractLsb' 0 7

/-- `inst[11:7]` (R60). -/
def rdOf (w : Word) : RegIdx := w.extractLsb' 7 5

/-- `inst[14:12]` (R60). -/
def funct3Of (w : Word) : BitVec 3 := w.extractLsb' 12 3

/-- `inst[19:15]` (R60). -/
def rs1Of (w : Word) : RegIdx := w.extractLsb' 15 5

/-- `inst[24:20]` (R60). -/
def rs2Of (w : Word) : RegIdx := w.extractLsb' 20 5

/-- `inst[31:25]` (R60). -/
def funct7Of (w : Word) : BitVec 7 := w.extractLsb' 25 7

/-- The I-immediate's 12 bits, `inst[31:20]` (R62). -/
def immIOf (w : Word) : BitVec 12 := w.extractLsb' 20 12

/-- The S-immediate's 12 bits, `{inst[31:25], inst[11:7]}` (R63). -/
def immSOf (w : Word) : BitVec 12 := w.extractLsb' 25 7 ++ w.extractLsb' 7 5

/-- The B-immediate's 13 bits, `{inst[31], inst[7], inst[30:25], inst[11:8], 0}` (R64). -/
def immBOf (w : Word) : BitVec 13 :=
  w.extractLsb' 31 1 ++ w.extractLsb' 7 1 ++ w.extractLsb' 25 6 ++ w.extractLsb' 8 4 ++ 0#1

/-- The U-immediate's upper 20 bits, `inst[31:12]` (R65). -/
def immUOf (w : Word) : BitVec 20 := w.extractLsb' 12 20

/-- The J-immediate's 21 bits, `{inst[31], inst[19:12], inst[20], inst[30:21], 0}` (R66). -/
def immJOf (w : Word) : BitVec 21 :=
  w.extractLsb' 31 1 ++ w.extractLsb' 12 8 ++ w.extractLsb' 20 1 ++ w.extractLsb' 21 10 ++ 0#1

/-! ## Extension to 32 bits -/

/-- `sext_N(v)`: the word of the same signed value (00_scope.md R13). -/
def sext {n : Nat} (v : BitVec n) : Word := v.signExtend 32

/-- `zext_N(v)`: the low N bits with zeros above (00_scope.md R13). -/
def zext {n : Nat} (v : BitVec n) : Word := v.setWidth 32

/-- `imm_i` and `imm_s` as used: 12 bits sign-extended (30_encoding.md R62, R63). -/
def imm12Word (imm : BitVec 12) : Word := sext imm

/-- `imm_b` as used: 13 bits sign-extended (R64). -/
def immBWord (offset : BitVec 13) : Word := sext offset

/-- `imm_u` as used: the 20 bits above twelve zeros (R65). -/
def immUWord (imm20 : BitVec 20) : Word := imm20 ++ 0#12

/-- `imm_j` as used: 21 bits sign-extended (R66). -/
def immJWord (offset : BitVec 21) : Word := sext offset

/-! ## Opcode classes (R68) -/

/-- The opcode value of each class (the table of R68). -/
def OpcodeClass.bits : OpcodeClass → BitVec 7
  | .lui     => 0b0110111#7
  | .auipc   => 0b0010111#7
  | .jal     => 0b1101111#7
  | .jalr    => 0b1100111#7
  | .branch  => 0b1100011#7
  | .opImm   => 0b0010011#7
  | .op      => 0b0110011#7
  | .load    => 0b0000011#7
  | .store   => 0b0100011#7
  | .miscMem => 0b0001111#7
  | .system  => 0b1110011#7

/-- The eleven classes (R68). -/
def opcodeClasses : List OpcodeClass :=
  [.lui, .auipc, .jal, .jalr, .branch, .opImm, .op, .load, .store, .miscMem, .system]

/-- The fixed lookup of R68; `none` is the decode failure of R69. -/
def lookupClass (opcode : BitVec 7) : Option OpcodeClass :=
  opcodeClasses.find? fun k => k.bits == opcode

/-! ## The decoded record (R78) -/

/-- The record the decoder makes of every word whose opcode is a class: all six fields and all five immediates, whichever
of them the class uses (R67, R78). -/
structure Decoded where
  opclass : OpcodeClass
  funct3 : BitVec 3
  funct7 : BitVec 7
  rd : RegIdx
  rs1 : RegIdx
  rs2 : RegIdx
  immI : Word
  immS : Word
  immB : Word
  immU : Word
  immJ : Word
deriving DecidableEq, Repr

/-- `decode(inst)` of R78; `none` is DecodeFailure. -/
def decodeRecord (w : Word) : Option Decoded :=
  (lookupClass (opcodeOf w)).map fun k =>
    { opclass := k, funct3 := funct3Of w, funct7 := funct7Of w, rd := rdOf w, rs1 := rs1Of w, rs2 := rs2Of w,
      immI := imm12Word (immIOf w), immS := imm12Word (immSOf w), immB := immBWord (immBOf w),
      immU := immUWord (immUOf w), immJ := immJWord (immJOf w) }

/-! ## Selectors within a class -/

/-- The funct7 value of the alternate form (R74, R75). -/
def altFunct7 : BitVec 7 := 0b0100000#7

/-- The sentinel's test on a SYSTEM word: funct3 and the whole immediate (R76; 45_misc_system.md R157, D6). -/
def isSentinel (c : Config) (funct3 : BitVec 3) (imm : BitVec 12) : Bool :=
  funct3 == c.sentinelFunct3 && imm == c.sentinelImm

/-- `ecallMatch(inst)`: the environment call's test on a SYSTEM word (45_misc_system.md R158, D5). -/
def isEcall (c : Config) (w : Word) : Bool :=
  match c.ecallMatch with
  | .funct3Only => funct3Of w == 0b000#3
  | .exact => w == 0x00000073#32

/-- BRANCH (R70). -/
def decodeBranch (w : Word) : Instr :=
  match (funct3Of w).toNat with
  | 0b000 => .beq (rs1Of w) (rs2Of w) (immBOf w)
  | 0b001 => .bne (rs1Of w) (rs2Of w) (immBOf w)
  | 0b010 => .branchInvalid010 (rs1Of w) (rs2Of w) (immBOf w)
  | 0b011 => .branchInvalid011 (rs1Of w) (rs2Of w) (immBOf w)
  | 0b100 => .blt (rs1Of w) (rs2Of w) (immBOf w)
  | 0b101 => .bge (rs1Of w) (rs2Of w) (immBOf w)
  | 0b110 => .bltu (rs1Of w) (rs2Of w) (immBOf w)
  | _     => .bgeu (rs1Of w) (rs2Of w) (immBOf w)

/-- OP (R73, R74): the alternate form changes selectors 000 and 101 only. -/
def decodeOp (w : Word) : Instr :=
  match (funct3Of w).toNat with
  | 0b000 => if funct7Of w = altFunct7 then .sub (rdOf w) (rs1Of w) (rs2Of w)
             else .add (rdOf w) (rs1Of w) (rs2Of w) (funct7Of w)
  | 0b001 => .sll (rdOf w) (rs1Of w) (rs2Of w) (funct7Of w)
  | 0b010 => .slt (rdOf w) (rs1Of w) (rs2Of w) (funct7Of w)
  | 0b011 => .sltu (rdOf w) (rs1Of w) (rs2Of w) (funct7Of w)
  | 0b100 => .xor (rdOf w) (rs1Of w) (rs2Of w) (funct7Of w)
  | 0b101 => if funct7Of w = altFunct7 then .sra (rdOf w) (rs1Of w) (rs2Of w)
             else .srl (rdOf w) (rs1Of w) (rs2Of w) (funct7Of w)
  | 0b110 => .or (rdOf w) (rs1Of w) (rs2Of w) (funct7Of w)
  | _     => .and (rdOf w) (rs1Of w) (rs2Of w) (funct7Of w)

/-- OP-IMM (R73, R75): funct7 matters with selector 101 only. -/
def decodeOpImm (w : Word) : Instr :=
  match (funct3Of w).toNat with
  | 0b000 => .addi (rdOf w) (rs1Of w) (immIOf w)
  | 0b001 => .slli (rdOf w) (rs1Of w) (rs2Of w) (funct7Of w)
  | 0b010 => .slti (rdOf w) (rs1Of w) (immIOf w)
  | 0b011 => .sltiu (rdOf w) (rs1Of w) (immIOf w)
  | 0b100 => .xori (rdOf w) (rs1Of w) (immIOf w)
  | 0b101 => if funct7Of w = altFunct7 then .srai (rdOf w) (rs1Of w) (rs2Of w)
             else .srli (rdOf w) (rs1Of w) (rs2Of w) (funct7Of w)
  | 0b110 => .ori (rdOf w) (rs1Of w) (immIOf w)
  | _     => .andi (rdOf w) (rs1Of w) (immIOf w)

/-- LOAD (R71). -/
def decodeLoad (w : Word) : Instr :=
  match (funct3Of w).toNat with
  | 0b000 => .lb (rdOf w) (rs1Of w) (immIOf w)
  | 0b001 => .lh (rdOf w) (rs1Of w) (immIOf w)
  | 0b010 => .lw (rdOf w) (rs1Of w) (immIOf w)
  | 0b011 => .loadInvalid011 (rdOf w) (rs1Of w) (immIOf w)
  | 0b100 => .lbu (rdOf w) (rs1Of w) (immIOf w)
  | 0b101 => .lhu (rdOf w) (rs1Of w) (immIOf w)
  | 0b110 => .loadInvalid110 (rdOf w) (rs1Of w) (immIOf w)
  | _     => .loadInvalid111 (rdOf w) (rs1Of w) (immIOf w)

/-- STORE (R72). -/
def decodeStore (w : Word) : Instr :=
  match (funct3Of w).toNat with
  | 0b000 => .sb (rs2Of w) (rs1Of w) (immSOf w)
  | 0b001 => .sh (rs2Of w) (rs1Of w) (immSOf w)
  | 0b010 => .sw (rs2Of w) (rs1Of w) (immSOf w)
  | 0b011 => .storeInvalid011 (rs2Of w) (rs1Of w) (immSOf w)
  | 0b100 => .storeInvalid100 (rs2Of w) (rs1Of w) (immSOf w)
  | 0b101 => .storeInvalid101 (rs2Of w) (rs1Of w) (immSOf w)
  | 0b110 => .storeInvalid110 (rs2Of w) (rs1Of w) (immSOf w)
  | _     => .storeInvalid111 (rs2Of w) (rs1Of w) (immSOf w)

/-- SYSTEM (R76): the arms are tried in the order sentinel, environment call, no-op (45_misc_system.md, opening). -/
def decodeSystem (c : Config) (w : Word) : Instr :=
  if isSentinel c (funct3Of w) (immIOf w) then .sentinel (rdOf w) (rs1Of w)
  else if isEcall c w then .ecall (rdOf w) (rs1Of w) (immIOf w)
  else .systemNop (rdOf w) (rs1Of w) (immIOf w) (funct3Of w)

/-- The instruction a word is, under a configuration: total, an opcode outside R68 giving the instruction that is
DecodeFailure (R69). -/
def decodeWord (c : Config) (w : Word) : Instr :=
  match lookupClass (opcodeOf w) with
  | none          => .decodeFailure w
  | some .lui     => .lui (rdOf w) (immUOf w)
  | some .auipc   => .auipc (rdOf w) (immUOf w)
  | some .jal     => .jal (rdOf w) (immJOf w)
  | some .jalr    => .jalr (rdOf w) (rs1Of w) (immIOf w) (funct3Of w)
  | some .branch  => decodeBranch w
  | some .opImm   => decodeOpImm w
  | some .op      => decodeOp w
  | some .load    => decodeLoad w
  | some .store   => decodeStore w
  | some .miscMem => .fence (rdOf w) (rs1Of w) (immIOf w) (funct3Of w)
  | some .system  => decodeSystem c w

/-! ## Decoding bytes -/

/-- Why a byte string holds no instruction. -/
inductive DecodeError where
  /-- fewer than the four bytes every instruction has (R59) -/
  | truncated
deriving DecidableEq, Repr

/-- The little-endian word of four bytes, the first at the lowest address (20_memory.md R39, R44, R45). -/
def leWord (b0 b1 b2 b3 : Byte) : Word := b3 ++ b2 ++ b1 ++ b0

/-- The low `n` bytes of a word, least significant first (20_memory.md R41). -/
def leBytes (n : Nat) (v : Word) : List Byte := (List.range n).map fun j => v.extractLsb' (8 * j) 8

/-- Decode the first instruction of a byte string under a configuration, with the bytes after it. -/
def decodeBytes (c : Config) : List Byte → Except DecodeError (Instr × List Byte)
  | b0 :: b1 :: b2 :: b3 :: rest => .ok (decodeWord c (leWord b0 b1 b2 b3), rest)
  | _ => .error .truncated

/-- The decoder at the reference configuration. -/
def decode (bytes : List Byte) : Except DecodeError (Instr × List Byte) := decodeBytes Config.reference bytes

/-- The host's view of the decoder: the instruction of a table word, whose bits above `nbits` are 0. -/
def decodeTableWord (nbits w : Nat) : Option Instr :=
  match decode (leBytes 4 (BitVec.ofNat 32 (w % 2 ^ nbits))) with
  | .ok (i, _) => some i
  | .error _ => none

/-! ## The encoder: the six formats (R61) and one line per instruction -/

/-- R format. -/
def rWord (funct7 : BitVec 7) (rs2 rs1 : RegIdx) (funct3 : BitVec 3) (rd : RegIdx) (k : OpcodeClass) : Word :=
  funct7 ++ rs2 ++ rs1 ++ funct3 ++ rd ++ k.bits

/-- I format. -/
def iWord (imm : BitVec 12) (rs1 : RegIdx) (funct3 : BitVec 3) (rd : RegIdx) (k : OpcodeClass) : Word :=
  imm ++ rs1 ++ funct3 ++ rd ++ k.bits

/-- S format. -/
def sWord (imm : BitVec 12) (rs2 rs1 : RegIdx) (funct3 : BitVec 3) (k : OpcodeClass) : Word :=
  imm.extractLsb' 5 7 ++ rs2 ++ rs1 ++ funct3 ++ imm.extractLsb' 0 5 ++ k.bits

/-- B format. -/
def bWord (offset : BitVec 13) (rs2 rs1 : RegIdx) (funct3 : BitVec 3) (k : OpcodeClass) : Word :=
  offset.extractLsb' 12 1 ++ offset.extractLsb' 5 6 ++ rs2 ++ rs1 ++ funct3 ++ offset.extractLsb' 1 4 ++
    offset.extractLsb' 11 1 ++ k.bits

/-- U format. -/
def uWord (imm20 : BitVec 20) (rd : RegIdx) (k : OpcodeClass) : Word := imm20 ++ rd ++ k.bits

/-- J format. -/
def jWord (offset : BitVec 21) (rd : RegIdx) (k : OpcodeClass) : Word :=
  offset.extractLsb' 20 1 ++ offset.extractLsb' 1 10 ++ offset.extractLsb' 11 1 ++ offset.extractLsb' 12 8 ++ rd ++ k.bits

/-- The word of a well-formed instruction under a configuration. -/
def encodeWord (c : Config) : Instr → Word
  | .lui rd imm20 => uWord imm20 rd .lui
  | .auipc rd imm20 => uWord imm20 rd .auipc
  | .jal rd offset => jWord offset rd .jal
  | .jalr rd rs1 imm funct3 => iWord imm rs1 funct3 rd .jalr
  | .beq rs1 rs2 offset => bWord offset rs2 rs1 0b000#3 .branch
  | .bne rs1 rs2 offset => bWord offset rs2 rs1 0b001#3 .branch
  | .blt rs1 rs2 offset => bWord offset rs2 rs1 0b100#3 .branch
  | .bge rs1 rs2 offset => bWord offset rs2 rs1 0b101#3 .branch
  | .bltu rs1 rs2 offset => bWord offset rs2 rs1 0b110#3 .branch
  | .bgeu rs1 rs2 offset => bWord offset rs2 rs1 0b111#3 .branch
  | .branchInvalid010 rs1 rs2 offset => bWord offset rs2 rs1 0b010#3 .branch
  | .branchInvalid011 rs1 rs2 offset => bWord offset rs2 rs1 0b011#3 .branch
  | .sub rd rs1 rs2 => rWord altFunct7 rs2 rs1 0b000#3 rd .op
  | .add rd rs1 rs2 funct7 => rWord funct7 rs2 rs1 0b000#3 rd .op
  | .sll rd rs1 rs2 funct7 => rWord funct7 rs2 rs1 0b001#3 rd .op
  | .slt rd rs1 rs2 funct7 => rWord funct7 rs2 rs1 0b010#3 rd .op
  | .sltu rd rs1 rs2 funct7 => rWord funct7 rs2 rs1 0b011#3 rd .op
  | .xor rd rs1 rs2 funct7 => rWord funct7 rs2 rs1 0b100#3 rd .op
  | .sra rd rs1 rs2 => rWord altFunct7 rs2 rs1 0b101#3 rd .op
  | .srl rd rs1 rs2 funct7 => rWord funct7 rs2 rs1 0b101#3 rd .op
  | .or rd rs1 rs2 funct7 => rWord funct7 rs2 rs1 0b110#3 rd .op
  | .and rd rs1 rs2 funct7 => rWord funct7 rs2 rs1 0b111#3 rd .op
  | .addi rd rs1 imm => iWord imm rs1 0b000#3 rd .opImm
  | .slti rd rs1 imm => iWord imm rs1 0b010#3 rd .opImm
  | .sltiu rd rs1 imm => iWord imm rs1 0b011#3 rd .opImm
  | .xori rd rs1 imm => iWord imm rs1 0b100#3 rd .opImm
  | .ori rd rs1 imm => iWord imm rs1 0b110#3 rd .opImm
  | .andi rd rs1 imm => iWord imm rs1 0b111#3 rd .opImm
  | .slli rd rs1 shamt funct7 => rWord funct7 shamt rs1 0b001#3 rd .opImm
  | .srai rd rs1 shamt => rWord altFunct7 shamt rs1 0b101#3 rd .opImm
  | .srli rd rs1 shamt funct7 => rWord funct7 shamt rs1 0b101#3 rd .opImm
  | .lb rd rs1 imm => iWord imm rs1 0b000#3 rd .load
  | .lh rd rs1 imm => iWord imm rs1 0b001#3 rd .load
  | .lw rd rs1 imm => iWord imm rs1 0b010#3 rd .load
  | .lbu rd rs1 imm => iWord imm rs1 0b100#3 rd .load
  | .lhu rd rs1 imm => iWord imm rs1 0b101#3 rd .load
  | .loadInvalid011 rd rs1 imm => iWord imm rs1 0b011#3 rd .load
  | .loadInvalid110 rd rs1 imm => iWord imm rs1 0b110#3 rd .load
  | .loadInvalid111 rd rs1 imm => iWord imm rs1 0b111#3 rd .load
  | .sb rs2 rs1 imm => sWord imm rs2 rs1 0b000#3 .store
  | .sh rs2 rs1 imm => sWord imm rs2 rs1 0b001#3 .store
  | .sw rs2 rs1 imm => sWord imm rs2 rs1 0b010#3 .store
  | .storeInvalid011 rs2 rs1 imm => sWord imm rs2 rs1 0b011#3 .store
  | .storeInvalid100 rs2 rs1 imm => sWord imm rs2 rs1 0b100#3 .store
  | .storeInvalid101 rs2 rs1 imm => sWord imm rs2 rs1 0b101#3 .store
  | .storeInvalid110 rs2 rs1 imm => sWord imm rs2 rs1 0b110#3 .store
  | .storeInvalid111 rs2 rs1 imm => sWord imm rs2 rs1 0b111#3 .store
  | .fence rd rs1 imm funct3 => iWord imm rs1 funct3 rd .miscMem
  | .sentinel rd rs1 => iWord c.sentinelImm rs1 c.sentinelFunct3 rd .system
  | .ecall rd rs1 imm => iWord imm rs1 0b000#3 rd .system
  | .systemNop rd rs1 imm funct3 => iWord imm rs1 funct3 rd .system
  | .decodeFailure w => w

/-- The encoder at the reference configuration. -/
def encode (i : Instr) : Word := encodeWord Config.reference i

/-! ## The opcode table (opcode_table.json) as data -/

/-- A row of opcode_table.json: a word matches when `word & mask = pattern`, and among the rows a word matches the one of
smallest priority wins (INDEX.md). -/
structure OpcodeRow where
  mnemonic : String
  pattern : Word
  mask : Word
  priority : Nat
deriving DecidableEq, Repr

/-- The row's mnemonic of each instruction, as the table spells it. -/
def mnemonicOf : Instr → String
  | .lui .. => "LUI"
  | .auipc .. => "AUIPC"
  | .jal .. => "JAL"
  | .jalr .. => "JALR"
  | .beq .. => "BEQ"
  | .bne .. => "BNE"
  | .blt .. => "BLT"
  | .bge .. => "BGE"
  | .bltu .. => "BLTU"
  | .bgeu .. => "BGEU"
  | .branchInvalid010 .. => "BRANCH-INVALID-010"
  | .branchInvalid011 .. => "BRANCH-INVALID-011"
  | .sub .. => "SUB"
  | .add .. => "ADD"
  | .sll .. => "SLL"
  | .slt .. => "SLT"
  | .sltu .. => "SLTU"
  | .xor .. => "XOR"
  | .sra .. => "SRA"
  | .srl .. => "SRL"
  | .or .. => "OR"
  | .and .. => "AND"
  | .addi .. => "ADDI"
  | .slti .. => "SLTI"
  | .sltiu .. => "SLTIU"
  | .xori .. => "XORI"
  | .ori .. => "ORI"
  | .andi .. => "ANDI"
  | .slli .. => "SLLI"
  | .srai .. => "SRAI"
  | .srli .. => "SRLI"
  | .lb .. => "LB"
  | .lh .. => "LH"
  | .lw .. => "LW"
  | .lbu .. => "LBU"
  | .lhu .. => "LHU"
  | .loadInvalid011 .. => "LOAD-INVALID-011"
  | .loadInvalid110 .. => "LOAD-INVALID-110"
  | .loadInvalid111 .. => "LOAD-INVALID-111"
  | .sb .. => "SB"
  | .sh .. => "SH"
  | .sw .. => "SW"
  | .storeInvalid011 .. => "STORE-INVALID-011"
  | .storeInvalid100 .. => "STORE-INVALID-100"
  | .storeInvalid101 .. => "STORE-INVALID-101"
  | .storeInvalid110 .. => "STORE-INVALID-110"
  | .storeInvalid111 .. => "STORE-INVALID-111"
  | .fence .. => "FENCE"
  | .sentinel .. => "SENTINEL"
  | .ecall .. => "ECALL"
  | .systemNop .. => "SYSTEM-NOP"
  | .decodeFailure .. => "DECODE-FAILURE"

/-- opcode_table.json, rows LUI to BRANCH-INVALID-011. -/
def opcodeTableControl : List OpcodeRow := [
  ⟨"LUI", 0x00000037#32, 0x0000007F#32, 1⟩,
  ⟨"AUIPC", 0x00000017#32, 0x0000007F#32, 1⟩,
  ⟨"JAL", 0x0000006F#32, 0x0000007F#32, 1⟩,
  ⟨"JALR", 0x00000067#32, 0x0000007F#32, 1⟩,
  ⟨"BEQ", 0x00000063#32, 0x0000707F#32, 1⟩,
  ⟨"BNE", 0x00001063#32, 0x0000707F#32, 1⟩,
  ⟨"BLT", 0x00004063#32, 0x0000707F#32, 1⟩,
  ⟨"BGE", 0x00005063#32, 0x0000707F#32, 1⟩,
  ⟨"BLTU", 0x00006063#32, 0x0000707F#32, 1⟩,
  ⟨"BGEU", 0x00007063#32, 0x0000707F#32, 1⟩,
  ⟨"BRANCH-INVALID-010", 0x00002063#32, 0x0000707F#32, 1⟩,
  ⟨"BRANCH-INVALID-011", 0x00003063#32, 0x0000707F#32, 1⟩]

/-- opcode_table.json, rows SUB to SRLI. -/
def opcodeTableAlu : List OpcodeRow := [
  ⟨"SUB", 0x40000033#32, 0xFE00707F#32, 0⟩,
  ⟨"ADD", 0x00000033#32, 0x0000707F#32, 1⟩,
  ⟨"SLL", 0x00001033#32, 0x0000707F#32, 1⟩,
  ⟨"SLT", 0x00002033#32, 0x0000707F#32, 1⟩,
  ⟨"SLTU", 0x00003033#32, 0x0000707F#32, 1⟩,
  ⟨"XOR", 0x00004033#32, 0x0000707F#32, 1⟩,
  ⟨"SRA", 0x40005033#32, 0xFE00707F#32, 0⟩,
  ⟨"SRL", 0x00005033#32, 0x0000707F#32, 1⟩,
  ⟨"OR", 0x00006033#32, 0x0000707F#32, 1⟩,
  ⟨"AND", 0x00007033#32, 0x0000707F#32, 1⟩,
  ⟨"ADDI", 0x00000013#32, 0x0000707F#32, 1⟩,
  ⟨"SLTI", 0x00002013#32, 0x0000707F#32, 1⟩,
  ⟨"SLTIU", 0x00003013#32, 0x0000707F#32, 1⟩,
  ⟨"XORI", 0x00004013#32, 0x0000707F#32, 1⟩,
  ⟨"ORI", 0x00006013#32, 0x0000707F#32, 1⟩,
  ⟨"ANDI", 0x00007013#32, 0x0000707F#32, 1⟩,
  ⟨"SLLI", 0x00001013#32, 0x0000707F#32, 1⟩,
  ⟨"SRAI", 0x40005013#32, 0xFE00707F#32, 0⟩,
  ⟨"SRLI", 0x00005013#32, 0x0000707F#32, 1⟩]

/-- opcode_table.json, rows LB to STORE-INVALID-111. -/
def opcodeTableMemory : List OpcodeRow := [
  ⟨"LB", 0x00000003#32, 0x0000707F#32, 1⟩,
  ⟨"LH", 0x00001003#32, 0x0000707F#32, 1⟩,
  ⟨"LW", 0x00002003#32, 0x0000707F#32, 1⟩,
  ⟨"LBU", 0x00004003#32, 0x0000707F#32, 1⟩,
  ⟨"LHU", 0x00005003#32, 0x0000707F#32, 1⟩,
  ⟨"LOAD-INVALID-011", 0x00003003#32, 0x0000707F#32, 1⟩,
  ⟨"LOAD-INVALID-110", 0x00006003#32, 0x0000707F#32, 1⟩,
  ⟨"LOAD-INVALID-111", 0x00007003#32, 0x0000707F#32, 1⟩,
  ⟨"SB", 0x00000023#32, 0x0000707F#32, 1⟩,
  ⟨"SH", 0x00001023#32, 0x0000707F#32, 1⟩,
  ⟨"SW", 0x00002023#32, 0x0000707F#32, 1⟩,
  ⟨"STORE-INVALID-011", 0x00003023#32, 0x0000707F#32, 1⟩,
  ⟨"STORE-INVALID-100", 0x00004023#32, 0x0000707F#32, 1⟩,
  ⟨"STORE-INVALID-101", 0x00005023#32, 0x0000707F#32, 1⟩,
  ⟨"STORE-INVALID-110", 0x00006023#32, 0x0000707F#32, 1⟩,
  ⟨"STORE-INVALID-111", 0x00007023#32, 0x0000707F#32, 1⟩]

/-- opcode_table.json, rows FENCE to DECODE-FAILURE. -/
def opcodeTableSystem : List OpcodeRow := [
  ⟨"FENCE", 0x0000000F#32, 0x0000007F#32, 1⟩,
  ⟨"SENTINEL", 0xC0001073#32, 0xFFF0707F#32, 0⟩,
  ⟨"ECALL", 0x00000073#32, 0x0000707F#32, 1⟩,
  ⟨"SYSTEM-NOP", 0x00000073#32, 0x0000007F#32, 2⟩,
  ⟨"DECODE-FAILURE", 0x00000000#32, 0x00000000#32, 3⟩]

/-- The rows of opcode_table.json, in its order (its ECALL row is written for `ECALL_MATCH = funct3_only`). -/
def opcodeTable : List OpcodeRow := opcodeTableControl ++ opcodeTableAlu ++ opcodeTableMemory ++ opcodeTableSystem

/-- The matching row of smallest priority of a list of rows, the earlier one where two are equal. -/
def bestRow (w : Word) : List OpcodeRow → Option OpcodeRow
  | [] => none
  | r :: rest =>
    if w &&& r.mask = r.pattern then
      match bestRow w rest with
      | some q => if q.priority < r.priority then some q else some r
      | none => some r
    else bestRow w rest

/-- The row opcode_table.json gives a word. -/
def tableRow (w : Word) : Option OpcodeRow := bestRow w opcodeTable

end Sys2Proof
end

