-- ==== Sys2Proof/Machine/State.lean ====
section
/-! DEFINITION. The state of the machine, the reasons a step can stop, and the state right after reset. -/

namespace Sys2Proof.Machine

/-- The four faults, each with the one datum it records (60_exceptions.md R163, R164). Raising one where the spec raises
none would be safe (the model would stop where the hardware goes on); each stands only where the spec raises it. -/
inductive Fault where
  /-- OutOfBounds: a fetch, load, store or loader write outside the window; the address and the width checked (4 for fetch
  and for every load). Raised by `Memory.readWord` and `Memory.writeBytes`. Safe: for narrow loads the check is the
  spec's decision D4, which errs toward stopping. -/
  | outOfBounds (address width : Nat)
  /-- DecodeFailure: an opcode outside the eleven classes, or an unrecognised load or store width; the instruction word.
  Raised by `execDecodeFailure`, `loadStage` and `storeStage`. Safe: the spec's own fault. -/
  | decodeFailure (word : Word)
  /-- InvalidOperation: an unsupported BranchUnit selector; the selector. Raised by `cond`. Safe: the spec's own fault. -/
  | invalidOperation (selector : BitVec 3)
  /-- GuestTestFailure: an environment call with a report value above `FAIL_ABOVE`; the value. Raised by `ecallStage`.
  Safe under `ECALL_MATCH = funct3_only` (92_eei_decisions.md D5). -/
  | guestTestFailure (report : Word)
deriving DecidableEq, Repr

/-- The kind of a fault (10_state.md R30; 60_exceptions.md R163). -/
inductive FaultKind where
  | outOfBounds | decodeFailure | invalidOperation | guestTestFailure
deriving DecidableEq, Repr

/-- Why the model has no meaning for an instruction. -/
inductive Refusal where
  /-- Raised by an arm of `exec` for an instruction not modelled yet; no arm does. Safe. -/
  | notModelled (mnemonic : String)
deriving DecidableEq, Repr

/-- The fault latch (10_state.md R30). It holds the fault with its datum, so that the latched fault can be reported again
(log entry 2). -/
inductive Status where
  | ready
  | faulted (f : Fault)
deriving DecidableEq, Repr

/-- What a step that raises no fault returns: the boolean of 40_execution_cycle.md R96, true and false. -/
inductive Signal where
  | cont
  | stop
deriving DecidableEq, Repr

/-- The bytes of the window that are not 0, by address, in one canonical form (`Memory.wf`). An unlisted address reads as
0, the reset contents (20_memory.md R57). -/
abbrev Memory := List Host.Cell

/-- Everything the spec gives the machine (10_state.md): the register file with its 32 slots and the pc, the memory window,
the fault latch; and two fields of the model's own that no step reads, what the machine shows its host (log entries 3, 4). -/
structure State where
  /-- the slots of x0 to x31 (R18); slot 0 is never written (R21) -/
  regs : Vector Word 32
  /-- the address of the instruction about to be fetched (R24) -/
  pc : Word
  /-- the memory window (20_memory.md R35) -/
  mem : Memory
  /-- the fault latch (R30) -/
  status : Status
  /-- output: what the last completed step returned (40_execution_cycle.md R96) -/
  signal : Signal
  /-- output: the report events since reset, oldest first (45_misc_system.md R160; D7) -/
  reports : List Word
deriving DecidableEq, Repr

/-- The state after reset (70_reset_and_hazards.md R179): registers, pc and memory 0, latch Ready. The two output fields
start at Continue and no events (DESIGN CHOICE, log entries 3, 4). -/
def State.reset : State where
  regs := Vector.replicate 32 0#32
  pc := 0#32
  mem := []
  status := .ready
  signal := .cont
  reports := []

end Sys2Proof.Machine
end

