-- ==== Sys2Proof/Machine/Ops.lean ====
section
/-! DEFINITION. The named operations over registers, memory and the fault latch, and the shared end of every instruction. -/

namespace Sys2Proof.Machine

/-- What a step answers. -/
abbrev Outcome := Host.Outcome State Fault Refusal

/-! ## Registers (10_state.md R20, R21) -/

/-- `x[i]`: 0 for i = 0, else the slot (R20). -/
def State.readReg (s : State) (i : RegIdx) : Word :=
  if i = 0#5 then 0#32 else s.regs[i.toNat]'i.isLt

/-- `x[i] <- v`: nothing for i = 0, else the slot (R21). -/
def State.writeReg (s : State) (i : RegIdx) (v : Word) : State :=
  if i = 0#5 then s else { s with regs := s.regs.set i.toNat v i.isLt }

/-- `pc <- t` (R24). -/
def State.setPc (s : State) (t : Word) : State := { s with pc := t }

/-- The state with another content of the window. -/
def State.setMem (s : State) (m : Memory) : State := { s with mem := m }

/-! ## The bytes of the window -/

/-- The byte at an address: the listed one, else 0 (20_memory.md R57). -/
def Memory.read (m : Memory) (a : Nat) : Byte :=
  match m with
  | [] => 0#8
  | (k, v) :: rest => if a = k then v else Memory.read rest a

/-- Write one byte, keeping the canonical form: a zero byte is not listed. -/
def Memory.write (m : Memory) (a : Nat) (b : Byte) : Memory :=
  match m with
  | [] => if b = 0#8 then [] else [(a, b)]
  | (k, v) :: rest =>
    if a < k then (if b = 0#8 then (k, v) :: rest else (a, b) :: (k, v) :: rest)
    else if a = k then (if b = 0#8 then rest else (a, b) :: rest)
    else (k, v) :: Memory.write rest a b

/-- Write bytes at consecutive addresses (20_memory.md R40). -/
def Memory.writeAll (m : Memory) (a : Nat) : List Byte → Memory
  | [] => m
  | b :: bs => Memory.writeAll (m.write a b) (a + 1) bs

/-- The canonical form: addresses strictly rising, no listed byte 0. -/
def Memory.wf : Memory → Bool
  | [] => true
  | (k, v) :: rest => v != 0#8 && rest.all (fun cell => decide (k < cell.1)) && Memory.wf rest

/-- Every listed byte lies in the window (20_memory.md R37, R51). -/
def Memory.within (c : Config) (m : Memory) : Bool :=
  m.all fun cell => decide (c.memBase ≤ cell.1 ∧ cell.1 < c.memBase + c.memSize)

/-! ## Bounds-checked accessors (20_memory.md) -/

/-- `inBounds(a, n)`, over integers (R37). -/
def inBounds (c : Config) (a n : Nat) : Bool :=
  decide (c.memBase ≤ a ∧ (a - c.memBase) + n ≤ c.memSize)

/-- The little-endian word of the four bytes from an address on (R39). -/
def Memory.word (m : Memory) (a : Nat) : Word := leWord (m.read a) (m.read (a + 1)) (m.read (a + 2)) (m.read (a + 3))

/-- `readWord(a)` (R39). -/
def Memory.readWord (c : Config) (m : Memory) (a : Word) : Except Fault Word :=
  if inBounds c a.toNat 4 then .ok (m.word a.toNat) else .error (.outOfBounds a.toNat 4)

/-- `writeBytes(a, bytes)`: the check precedes every write (R40; R43 for no bytes). -/
def Memory.writeBytes (c : Config) (m : Memory) (a : Nat) (bytes : List Byte) : Except Fault Memory :=
  if inBounds c a bytes.length then .ok (m.writeAll a bytes) else .error (.outOfBounds a bytes.length)

/-- The widths a load or store moves (R49). -/
inductive Width where
  | byte | half | word
deriving DecidableEq, Repr

/-- How many bytes a width is (R49). -/
def Width.bytes : Width → Nat
  | .byte => 1
  | .half => 2
  | .word => 4

/-- What a narrow read keeps of the word read (R42). -/
def Width.mask : Width → Word
  | .byte => 0x000000FF#32
  | .half => 0x0000FFFF#32
  | .word => 0xFFFFFFFF#32

/-- `MemRead(a, n)`: the word at `a`, masked (R39, R42, D4): the check covers four bytes whatever the width. -/
def Memory.memRead (c : Config) (m : Memory) (a : Word) (w : Width) : Except Fault Word :=
  match m.readWord c a with
  | .ok v => .ok (v &&& w.mask)
  | .error f => .error f

/-- `MemWrite(a, n, v)`: the low n bytes of `v`, least significant first (R41). -/
def Memory.memWrite (c : Config) (m : Memory) (a : Word) (w : Width) (v : Word) : Except Fault Memory :=
  m.writeBytes c a.toNat (leBytes w.bytes v)

/-- Fetch: `readWord` at the pc, with no alignment check (40_execution_cycle.md R87; 20_memory.md R45, R48). -/
def fetch (c : Config) (s : State) : Except Fault Word := s.mem.readWord c s.pc

/-! ## Faults: the only exception the hardware has (60_exceptions.md R165, R169)

There is no saved register, vector, mode change or return (R169, R171): a fault ends the run. -/

/-- `raise F(info)`: the step ends with the fault and changes no register, no pc and no memory byte (00_scope.md R14). The
host's outcome of a fault carries no state; `State.latchFault` is the state it leaves (log entry 1). -/
def raise (f : Fault) : Outcome := .fault f

/-- The state a raised fault leaves: the state before, with the latch set (10_state.md R30; R165). -/
def State.latchFault (s : State) (f : Fault) : State := { s with status := .faulted f }

/-- The kind of a fault (R163). -/
def Fault.kind : Fault → FaultKind
  | .outOfBounds .. => .outOfBounds
  | .decodeFailure .. => .decodeFailure
  | .invalidOperation .. => .invalidOperation
  | .guestTestFailure .. => .guestTestFailure

/-- The spec's labels of the kinds (R163; its own, not architectural values). -/
def FaultKind.code : FaultKind → Nat
  | .outOfBounds => 1
  | .decodeFailure => 2
  | .invalidOperation => 3
  | .guestTestFailure => 4

/-! ## Writeback (40_execution_cycle.md R92) -/

/-- What an instruction leaves for writeback. -/
inductive Writeback where
  /-- no redirect, no result: the pc advances -/
  | none
  /-- a result for rd, and the pc advances -/
  | result (rd : RegIdx) (v : Word)
  /-- a redirect without a link: a taken branch -/
  | jump (target : Word)
  /-- a redirect with `PC + 4` linked into rd first: JAL, JALR -/
  | link (rd : RegIdx) (target : Word)
deriving DecidableEq, Repr

/-- The link value and the advanced pc, `PC + 4` modulo 2^32 (R92). -/
def State.nextPc (s : State) : Word := s.pc + 4#32

/-- Writeback: at most one register, then the pc (R92). The step then returns Continue (R96). -/
def State.writeback (s : State) : Writeback → State
  | .none => { s with pc := s.nextPc, signal := .cont }
  | .result rd v => { s.writeReg rd v with pc := s.nextPc, signal := .cont }
  | .jump target => { s with pc := target, signal := .cont }
  | .link rd target => { s.writeReg rd s.nextPc with pc := target, signal := .cont }

/-- Writeback ends the step with Continue. -/
def retire (wb : Writeback) (s : State) : Outcome := .next (s.writeback wb)

/-- `stop`: the step returns Stop and writes nothing (45_misc_system.md R157). -/
def stopStep (s : State) : Outcome := .next { s with signal := .stop }

/-- `emit Report(r)`: an event for the host, which no step reads (R160). -/
def State.emitReport (s : State) (r : Word) : State := { s with reports := s.reports ++ [r] }

end Sys2Proof.Machine
end

