-- ==== Sys2Proof/Machine/Flags.lean ====
section
/-! DEFINITION. The hardware has no status flags (10_state.md R28). What other machines keep in flags is computed in the
step that uses it: the comparisons, the branch conditions, and the alternate-form flag. -/

namespace Sys2Proof.Machine

/-- `signed(a) < signed(b)` (00_scope.md R12). -/
def signedLess (a b : Word) : Bool := decide (a.toInt < b.toInt)

/-- `a <u b` (00_scope.md R12). -/
def unsignedLess (a b : Word) : Bool := decide (a.toNat < b.toNat)

/-- A comparison's result as a word, 1 or 0 (43_integer_alu.md R117, R118). -/
def boolWord (b : Bool) : Word := if b then 1#32 else 0#32

/-- The BranchUnit: `cond(selector, a, b)` (42_control_transfer.md R100), an unsupported selector raising
InvalidOperation (R101). -/
def cond (selector : BitVec 3) (a b : Word) : Except Fault Bool :=
  match selector.toNat with
  | 0b000 => .ok (a == b)
  | 0b001 => .ok (a != b)
  | 0b100 => .ok (signedLess a b)
  | 0b101 => .ok (!signedLess a b)
  | 0b110 => .ok (unsignedLess a b)
  | 0b111 => .ok (!unsignedLess a b)
  | _ => .error (.invalidOperation selector)

/-- The alternate-form flag of the OP class, whatever funct3 is (30_encoding.md R74). -/
def altOp (funct7 : BitVec 7) : Bool := funct7 == altFunct7

/-- The alternate-form flag of the OP-IMM class (R75). -/
def altOpImm (funct3 : BitVec 3) (funct7 : BitVec 7) : Bool := funct3 == 0b101#3 && funct7 == altFunct7

end Sys2Proof.Machine
end

