-- ==== Sys2Proof/Machine/Operands.lean ====
section
/-! DEFINITION. The operand forms: what operand read (40_execution_cycle.md R89) and the addressing rules give an
instruction. Every value is read from the state before any write (R93, R94). -/

namespace Sys2Proof.Machine

/-- The effective address of a load or store, base plus displacement modulo 2^32: the only addressing mode
(44_load_store.md R144; 20_memory.md R50). -/
def effectiveAddress (s : State) (rs1 : RegIdx) (imm : BitVec 12) : Word := s.readReg rs1 + imm12Word imm

/-- `PC + imm_u` (41_upper_immediate.md R99). -/
def upperTarget (s : State) (imm20 : BitVec 20) : Word := s.pc + immUWord imm20

/-- `PC + imm_j` (42_control_transfer.md R102). -/
def jalTarget (s : State) (offset : BitVec 21) : Word := s.pc + immJWord offset

/-- `x[rs1] + imm_i`, bit 0 kept (R103; 90_conflicts.md C8). -/
def jalrTarget (s : State) (rs1 : RegIdx) (imm : BitVec 12) : Word := s.readReg rs1 + imm12Word imm

/-- `PC + imm_b` (42_control_transfer.md, section 3). -/
def branchTarget (s : State) (offset : BitVec 13) : Word := s.pc + immBWord offset

/-- The immediate of a shift: `imm_i` whose bits 11:5 are funct7 and whose bits 4:0 are the shift amount
(43_integer_alu.md R141 to R143). -/
def shiftImm (funct7 : BitVec 7) (shamt : BitVec 5) : Word := imm12Word (funct7 ++ shamt)

/-- The widths and extensions of the loads (30_encoding.md R71); `none` is an unrecognised width. -/
def loadWidth (funct3 : BitVec 3) : Option (Width × Bool) :=
  match funct3.toNat with
  | 0b000 => some (.byte, true)
  | 0b001 => some (.half, true)
  | 0b010 => some (.word, true)
  | 0b100 => some (.byte, false)
  | 0b101 => some (.half, false)
  | _ => none

/-- The widths of the stores (R72); `none` is an unrecognised width. -/
def storeWidth (funct3 : BitVec 3) : Option Width :=
  match funct3.toNat with
  | 0b000 => some .byte
  | 0b001 => some .half
  | 0b010 => some .word
  | _ => none

/-- A loaded value extended to a word: `sext_8`, `sext_16`, `zext_8`, `zext_16`, or the word itself (44_load_store.md R145 to
R149). -/
def extendLoad (signed : Bool) (w : Width) (v : Word) : Word :=
  match w, signed with
  | .byte, true => sext (v.setWidth 8)
  | .half, true => sext (v.setWidth 16)
  | .byte, false => zext (v.setWidth 8)
  | .half, false => zext (v.setWidth 16)
  | .word, _ => v

/-! ## The stages the families share -/

/-- `arith(selector, x, y, alternateForm)` (43_integer_alu.md R114 to R122), total: all eight selectors have a meaning, so the
ALU's InvalidOperation cannot be reached (R123; 90_conflicts.md C3). -/
def arith (selector : BitVec 3) (x y : Word) (alternateForm : Bool) : Word :=
  match selector.toNat with
  | 0b000 => if alternateForm then x - y else x + y
  | 0b001 => x <<< (y &&& 0x1F#32).toNat
  | 0b010 => boolWord (signedLess x y)
  | 0b011 => boolWord (unsignedLess x y)
  | 0b100 => x ^^^ y
  | 0b101 =>
    let s := (y &&& 0x1F#32).toNat
    if alternateForm && x.getLsbD 31 then (x >>> s) ||| ~~~(0xFFFFFFFF#32 >>> s) else x >>> s
  | 0b110 => x ||| y
  | _ => x &&& y

/-- The OP class: `result <- arith(funct3, x[rs1], x[rs2], alt)`, then writeback. -/
def opStage (selector : BitVec 3) (alternateForm : Bool) (rd rs1 rs2 : RegIdx) (s : State) : Outcome :=
  retire (.result rd (arith selector (s.readReg rs1) (s.readReg rs2) alternateForm)) s

/-- The OP-IMM class: `result <- arith(funct3, x[rs1], imm_i, alt)`, then writeback. -/
def opImmStage (selector : BitVec 3) (alternateForm : Bool) (rd rs1 : RegIdx) (imm : Word) (s : State) : Outcome :=
  retire (.result rd (arith selector (s.readReg rs1) imm alternateForm)) s

/-- The BRANCH class: the BranchUnit decides, a fault of it ends the step (42_control_transfer.md, section 3, R110). -/
def branchStage (selector : BitVec 3) (rs1 rs2 : RegIdx) (offset : BitVec 13) (s : State) : Outcome :=
  match cond selector (s.readReg rs1) (s.readReg rs2) with
  | .ok true => retire (.jump (branchTarget s offset)) s
  | .ok false => retire .none s
  | .error f => raise f

/-- The LOAD class: the width is dispatched before memory is read (40_execution_cycle.md R91, D8), then the read, the
extension and writeback (44_load_store.md R144 to R150). -/
def loadStage (c : Config) (funct3 : BitVec 3) (rd rs1 : RegIdx) (imm : BitVec 12) (s : State) : Outcome :=
  match loadWidth funct3 with
  | none => raise (.decodeFailure (iWord imm rs1 funct3 rd .load))
  | some (w, signed) =>
    match s.mem.memRead c (effectiveAddress s rs1 imm) w with
    | .ok v => retire (.result rd (extendLoad signed w v)) s
    | .error f => raise f

/-- The STORE class: the width first, then the bounds-checked write of the low bytes of x[rs2], then the pc (R151 to R154). -/
def storeStage (c : Config) (funct3 : BitVec 3) (rs2 rs1 : RegIdx) (imm : BitVec 12) (s : State) : Outcome :=
  match storeWidth funct3 with
  | none => raise (.decodeFailure (sWord imm rs2 rs1 funct3 .store))
  | some w =>
    match s.mem.memWrite c (effectiveAddress s rs1 imm) w (s.readReg rs2) with
    | .ok m => retire .none (s.setMem m)
    | .error f => raise f

/-- The environment call (45_misc_system.md R159): a report value above `FAIL_ABOVE`, unsigned, fails the run; any other is
reported and the run goes on. -/
def ecallStage (c : Config) (s : State) : Outcome :=
  if c.failAbove.toNat < (s.readReg c.reportReg).toNat then raise (.guestTestFailure (s.readReg c.reportReg))
  else retire .none (s.emitReport (s.readReg c.reportReg))

/-- What a report value tells the host (R159). -/
inductive ReportSignal where
  | pass
  | informational
deriving DecidableEq, Repr

/-- The signal a reported value is, by `PASS_VALUE` and `INFO_VALUE` (00_scope.md R9; R159). -/
def reportSignal (c : Config) (r : Word) : Option ReportSignal :=
  if r = c.passValue then some .pass else if r = c.infoValue then some .informational else none

end Sys2Proof.Machine
end

