-- ==== Sys2Proof/Machine/Control.lean ====
section
/-! DEFINITION. Jumps and branches (42_control_transfer.md). -/

namespace Sys2Proof.Machine

/-- JAL (R102): link, then PC + imm_j. -/
def execJal (rd : RegIdx) (offset : BitVec 21) (s : State) : Outcome :=
  retire (.link rd (jalTarget s offset)) s

/-- JALR (R103): link, then the old x[rs1] + imm_i; funct3 is ignored (30_encoding.md R77). -/
def execJalr (rd rs1 : RegIdx) (imm : BitVec 12) (_funct3 : BitVec 3) (s : State) : Outcome :=
  retire (.link rd (jalrTarget s rs1 imm)) s

/-- BEQ (R104: equal). -/
def execBeq (rs1 rs2 : RegIdx) (offset : BitVec 13) (s : State) : Outcome :=
  branchStage 0b000#3 rs1 rs2 offset s

/-- BNE (R105: not equal). -/
def execBne (rs1 rs2 : RegIdx) (offset : BitVec 13) (s : State) : Outcome :=
  branchStage 0b001#3 rs1 rs2 offset s

/-- BLT (R106: signed less). -/
def execBlt (rs1 rs2 : RegIdx) (offset : BitVec 13) (s : State) : Outcome :=
  branchStage 0b100#3 rs1 rs2 offset s

/-- BGE (R107: signed greater or equal). -/
def execBge (rs1 rs2 : RegIdx) (offset : BitVec 13) (s : State) : Outcome :=
  branchStage 0b101#3 rs1 rs2 offset s

/-- BLTU (R108: unsigned less). -/
def execBltu (rs1 rs2 : RegIdx) (offset : BitVec 13) (s : State) : Outcome :=
  branchStage 0b110#3 rs1 rs2 offset s

/-- BGEU (R109: unsigned greater or equal). -/
def execBgeu (rs1 rs2 : RegIdx) (offset : BitVec 13) (s : State) : Outcome :=
  branchStage 0b111#3 rs1 rs2 offset s

/-- BRANCH with funct3 010 (R110): InvalidOperation, from the BranchUnit. -/
def execBranchInvalid010 (rs1 rs2 : RegIdx) (offset : BitVec 13) (s : State) : Outcome :=
  branchStage 0b010#3 rs1 rs2 offset s

/-- BRANCH with funct3 011 (R110): InvalidOperation, from the BranchUnit. -/
def execBranchInvalid011 (rs1 rs2 : RegIdx) (offset : BitVec 13) (s : State) : Outcome :=
  branchStage 0b011#3 rs1 rs2 offset s

end Sys2Proof.Machine
end

