-- ==== Sys2Proof/Machine/ImmAlu.lean ====
section
/-! DEFINITION. Immediate-arithmetic instructions, the OP-IMM class (43_integer_alu.md, section 3). -/

namespace Sys2Proof.Machine

/-- ADDI (R135): selector 000, never the alternate form (30_encoding.md R75). -/
def execAddi (rd rs1 : RegIdx) (imm : BitVec 12) (s : State) : Outcome :=
  opImmStage 0b000#3 (altOpImm 0b000#3 (imm.extractLsb' 5 7)) rd rs1 (imm12Word imm) s

/-- SLTI (R136): selector 010, never the alternate form (30_encoding.md R75). -/
def execSlti (rd rs1 : RegIdx) (imm : BitVec 12) (s : State) : Outcome :=
  opImmStage 0b010#3 (altOpImm 0b010#3 (imm.extractLsb' 5 7)) rd rs1 (imm12Word imm) s

/-- SLTIU (R137): selector 011, never the alternate form (30_encoding.md R75). -/
def execSltiu (rd rs1 : RegIdx) (imm : BitVec 12) (s : State) : Outcome :=
  opImmStage 0b011#3 (altOpImm 0b011#3 (imm.extractLsb' 5 7)) rd rs1 (imm12Word imm) s

/-- XORI (R138): selector 100, never the alternate form (30_encoding.md R75). -/
def execXori (rd rs1 : RegIdx) (imm : BitVec 12) (s : State) : Outcome :=
  opImmStage 0b100#3 (altOpImm 0b100#3 (imm.extractLsb' 5 7)) rd rs1 (imm12Word imm) s

/-- ORI (R139): selector 110, never the alternate form (30_encoding.md R75). -/
def execOri (rd rs1 : RegIdx) (imm : BitVec 12) (s : State) : Outcome :=
  opImmStage 0b110#3 (altOpImm 0b110#3 (imm.extractLsb' 5 7)) rd rs1 (imm12Word imm) s

/-- ANDI (R140): selector 111, never the alternate form (30_encoding.md R75). -/
def execAndi (rd rs1 : RegIdx) (imm : BitVec 12) (s : State) : Outcome :=
  opImmStage 0b111#3 (altOpImm 0b111#3 (imm.extractLsb' 5 7)) rd rs1 (imm12Word imm) s

/-- SLLI (R141): selector 001; imm_i[11:5] is not checked. -/
def execSlli (rd rs1 : RegIdx) (shamt : BitVec 5) (funct7 : BitVec 7) (s : State) : Outcome :=
  opImmStage 0b001#3 (altOpImm 0b001#3 funct7) rd rs1 (shiftImm funct7 shamt) s

/-- SRAI (R143): selector 101, the alternate form. -/
def execSrai (rd rs1 : RegIdx) (shamt : BitVec 5) (s : State) : Outcome :=
  opImmStage 0b101#3 true rd rs1 (shiftImm altFunct7 shamt) s

/-- SRLI (R142): selector 101, the normal form. -/
def execSrli (rd rs1 : RegIdx) (shamt : BitVec 5) (funct7 : BitVec 7) (s : State) : Outcome :=
  opImmStage 0b101#3 false rd rs1 (shiftImm funct7 shamt) s

end Sys2Proof.Machine
end

