-- ==== Sys2Proof/Machine/LoadStore.lean ====
section
/-! DEFINITION. Loads and stores (44_load_store.md). -/

namespace Sys2Proof.Machine

/-- LB (R145). -/
def execLb (rd rs1 : RegIdx) (imm : BitVec 12) (s : State) : Outcome :=
  loadStage Config.reference 0b000#3 rd rs1 imm s

/-- LH (R146). -/
def execLh (rd rs1 : RegIdx) (imm : BitVec 12) (s : State) : Outcome :=
  loadStage Config.reference 0b001#3 rd rs1 imm s

/-- LW (R147). -/
def execLw (rd rs1 : RegIdx) (imm : BitVec 12) (s : State) : Outcome :=
  loadStage Config.reference 0b010#3 rd rs1 imm s

/-- LBU (R148). -/
def execLbu (rd rs1 : RegIdx) (imm : BitVec 12) (s : State) : Outcome :=
  loadStage Config.reference 0b100#3 rd rs1 imm s

/-- LHU (R149). -/
def execLhu (rd rs1 : RegIdx) (imm : BitVec 12) (s : State) : Outcome :=
  loadStage Config.reference 0b101#3 rd rs1 imm s

/-- LOAD with funct3 011 (R150): DecodeFailure of the word, whatever the address. -/
def execLoadInvalid011 (rd rs1 : RegIdx) (imm : BitVec 12) (s : State) : Outcome :=
  loadStage Config.reference 0b011#3 rd rs1 imm s

/-- LOAD with funct3 110 (R150): DecodeFailure of the word, whatever the address. -/
def execLoadInvalid110 (rd rs1 : RegIdx) (imm : BitVec 12) (s : State) : Outcome :=
  loadStage Config.reference 0b110#3 rd rs1 imm s

/-- LOAD with funct3 111 (R150): DecodeFailure of the word, whatever the address. -/
def execLoadInvalid111 (rd rs1 : RegIdx) (imm : BitVec 12) (s : State) : Outcome :=
  loadStage Config.reference 0b111#3 rd rs1 imm s

/-- SB (R151). -/
def execSb (rs2 rs1 : RegIdx) (imm : BitVec 12) (s : State) : Outcome :=
  storeStage Config.reference 0b000#3 rs2 rs1 imm s

/-- SH (R152). -/
def execSh (rs2 rs1 : RegIdx) (imm : BitVec 12) (s : State) : Outcome :=
  storeStage Config.reference 0b001#3 rs2 rs1 imm s

/-- SW (R153). -/
def execSw (rs2 rs1 : RegIdx) (imm : BitVec 12) (s : State) : Outcome :=
  storeStage Config.reference 0b010#3 rs2 rs1 imm s

/-- STORE with funct3 011 (R154): DecodeFailure of the word, whatever the address. -/
def execStoreInvalid011 (rs2 rs1 : RegIdx) (imm : BitVec 12) (s : State) : Outcome :=
  storeStage Config.reference 0b011#3 rs2 rs1 imm s

/-- STORE with funct3 100 (R154): DecodeFailure of the word, whatever the address. -/
def execStoreInvalid100 (rs2 rs1 : RegIdx) (imm : BitVec 12) (s : State) : Outcome :=
  storeStage Config.reference 0b100#3 rs2 rs1 imm s

/-- STORE with funct3 101 (R154): DecodeFailure of the word, whatever the address. -/
def execStoreInvalid101 (rs2 rs1 : RegIdx) (imm : BitVec 12) (s : State) : Outcome :=
  storeStage Config.reference 0b101#3 rs2 rs1 imm s

/-- STORE with funct3 110 (R154): DecodeFailure of the word, whatever the address. -/
def execStoreInvalid110 (rs2 rs1 : RegIdx) (imm : BitVec 12) (s : State) : Outcome :=
  storeStage Config.reference 0b110#3 rs2 rs1 imm s

/-- STORE with funct3 111 (R154): DecodeFailure of the word, whatever the address. -/
def execStoreInvalid111 (rs2 rs1 : RegIdx) (imm : BitVec 12) (s : State) : Outcome :=
  storeStage Config.reference 0b111#3 rs2 rs1 imm s

end Sys2Proof.Machine
end

