-- ==== Sys2Proof/Machine/RegAlu.lean ====
section
/-! DEFINITION. Register-arithmetic instructions, the OP class (43_integer_alu.md, section 2). -/

namespace Sys2Proof.Machine

/-- SUB (R126): selector 000, the alternate form. -/
def execSub (rd rs1 rs2 : RegIdx) (s : State) : Outcome :=
  opStage 0b000#3 true rd rs1 rs2 s

/-- ADD (R125): selector 000, the normal form, whatever else funct7 holds. -/
def execAdd (rd rs1 rs2 : RegIdx) (_funct7 : BitVec 7) (s : State) : Outcome :=
  opStage 0b000#3 false rd rs1 rs2 s

/-- SLL (R127): selector 001, the ALU ignores the alternate form. -/
def execSll (rd rs1 rs2 : RegIdx) (funct7 : BitVec 7) (s : State) : Outcome :=
  opStage 0b001#3 (altOp funct7) rd rs1 rs2 s

/-- SLT (R128): selector 010, the ALU ignores the alternate form. -/
def execSlt (rd rs1 rs2 : RegIdx) (funct7 : BitVec 7) (s : State) : Outcome :=
  opStage 0b010#3 (altOp funct7) rd rs1 rs2 s

/-- SLTU (R129): selector 011, the ALU ignores the alternate form. -/
def execSltu (rd rs1 rs2 : RegIdx) (funct7 : BitVec 7) (s : State) : Outcome :=
  opStage 0b011#3 (altOp funct7) rd rs1 rs2 s

/-- XOR (R130): selector 100, the ALU ignores the alternate form. -/
def execXor (rd rs1 rs2 : RegIdx) (funct7 : BitVec 7) (s : State) : Outcome :=
  opStage 0b100#3 (altOp funct7) rd rs1 rs2 s

/-- SRA (R132): selector 101, the alternate form. -/
def execSra (rd rs1 rs2 : RegIdx) (s : State) : Outcome :=
  opStage 0b101#3 true rd rs1 rs2 s

/-- SRL (R131): selector 101, the normal form, whatever else funct7 holds. -/
def execSrl (rd rs1 rs2 : RegIdx) (_funct7 : BitVec 7) (s : State) : Outcome :=
  opStage 0b101#3 false rd rs1 rs2 s

/-- OR (R133): selector 110, the ALU ignores the alternate form. -/
def execOr (rd rs1 rs2 : RegIdx) (funct7 : BitVec 7) (s : State) : Outcome :=
  opStage 0b110#3 (altOp funct7) rd rs1 rs2 s

/-- AND (R134): selector 111, the ALU ignores the alternate form. -/
def execAnd (rd rs1 rs2 : RegIdx) (funct7 : BitVec 7) (s : State) : Outcome :=
  opStage 0b111#3 (altOp funct7) rd rs1 rs2 s

end Sys2Proof.Machine
end

