-- ==== Sys2Proof/Machine/System.lean ====
section
/-! DEFINITION. MISC-MEM and SYSTEM (45_misc_system.md), and the word that is no instruction (30_encoding.md R69). -/

namespace Sys2Proof.Machine

/-- FENCE and every MISC-MEM word (R156): only the pc advances. -/
def execFence (_rd _rs1 : RegIdx) (_imm : BitVec 12) (_funct3 : BitVec 3) (s : State) : Outcome :=
  retire .none s

/-- The sentinel (R157): Stop; no register, pc or memory write. -/
def execSentinel (_rd _rs1 : RegIdx) (s : State) : Outcome :=
  stopStep s

/-- The environment call (R159); its own fields are not examined (R158, `funct3_only`). -/
def execEcall (_rd _rs1 : RegIdx) (_imm : BitVec 12) (s : State) : Outcome :=
  ecallStage Config.reference s

/-- Every other SYSTEM word (R161): only the pc advances; rd is not written. -/
def execSystemNop (_rd _rs1 : RegIdx) (_imm : BitVec 12) (_funct3 : BitVec 3) (s : State) : Outcome :=
  retire .none s

/-- A word whose opcode is no class (30_encoding.md R69): DecodeFailure. -/
def execDecodeFailure (word : Word) (_s : State) : Outcome :=
  raise (.decodeFailure word)

end Sys2Proof.Machine
end

