-- ==== Sys2Proof/Machine/Upper.lean ====
section
/-! DEFINITION. LUI and AUIPC (41_upper_immediate.md). -/

namespace Sys2Proof.Machine

/-- LUI (R98): rd gets imm_u. -/
def execLui (rd : RegIdx) (imm20 : BitVec 20) (s : State) : Outcome :=
  retire (.result rd (immUWord imm20)) s

/-- AUIPC (R99): rd gets PC + imm_u. -/
def execAuipc (rd : RegIdx) (imm20 : BitVec 20) (s : State) : Outcome :=
  retire (.result rd (upperTarget s imm20)) s

end Sys2Proof.Machine
end

