-- ==== Sys2Proof/Machine/Dispatch.lean ====
section
/-! DEFINITION. The dispatch: one arm per instruction, one meaning per arm. -/

namespace Sys2Proof.Machine

/-- The effect of one decoded instruction on a state whose pc is the instruction's address. -/
def exec (i : Instr) (s : State) : Host.Outcome State Fault Refusal :=
  match i with
  | .lui rd imm20 => Sys2Proof.Machine.execLui rd imm20 s
  | .auipc rd imm20 => Sys2Proof.Machine.execAuipc rd imm20 s
  | .jal rd offset => Sys2Proof.Machine.execJal rd offset s
  | .jalr rd rs1 imm funct3 => Sys2Proof.Machine.execJalr rd rs1 imm funct3 s
  | .beq rs1 rs2 offset => Sys2Proof.Machine.execBeq rs1 rs2 offset s
  | .bne rs1 rs2 offset => Sys2Proof.Machine.execBne rs1 rs2 offset s
  | .blt rs1 rs2 offset => Sys2Proof.Machine.execBlt rs1 rs2 offset s
  | .bge rs1 rs2 offset => Sys2Proof.Machine.execBge rs1 rs2 offset s
  | .bltu rs1 rs2 offset => Sys2Proof.Machine.execBltu rs1 rs2 offset s
  | .bgeu rs1 rs2 offset => Sys2Proof.Machine.execBgeu rs1 rs2 offset s
  | .branchInvalid010 rs1 rs2 offset => Sys2Proof.Machine.execBranchInvalid010 rs1 rs2 offset s
  | .branchInvalid011 rs1 rs2 offset => Sys2Proof.Machine.execBranchInvalid011 rs1 rs2 offset s
  | .sub rd rs1 rs2 => Sys2Proof.Machine.execSub rd rs1 rs2 s
  | .add rd rs1 rs2 funct7 => Sys2Proof.Machine.execAdd rd rs1 rs2 funct7 s
  | .sll rd rs1 rs2 funct7 => Sys2Proof.Machine.execSll rd rs1 rs2 funct7 s
  | .slt rd rs1 rs2 funct7 => Sys2Proof.Machine.execSlt rd rs1 rs2 funct7 s
  | .sltu rd rs1 rs2 funct7 => Sys2Proof.Machine.execSltu rd rs1 rs2 funct7 s
  | .xor rd rs1 rs2 funct7 => Sys2Proof.Machine.execXor rd rs1 rs2 funct7 s
  | .sra rd rs1 rs2 => Sys2Proof.Machine.execSra rd rs1 rs2 s
  | .srl rd rs1 rs2 funct7 => Sys2Proof.Machine.execSrl rd rs1 rs2 funct7 s
  | .or rd rs1 rs2 funct7 => Sys2Proof.Machine.execOr rd rs1 rs2 funct7 s
  | .and rd rs1 rs2 funct7 => Sys2Proof.Machine.execAnd rd rs1 rs2 funct7 s
  | .addi rd rs1 imm => Sys2Proof.Machine.execAddi rd rs1 imm s
  | .slti rd rs1 imm => Sys2Proof.Machine.execSlti rd rs1 imm s
  | .sltiu rd rs1 imm => Sys2Proof.Machine.execSltiu rd rs1 imm s
  | .xori rd rs1 imm => Sys2Proof.Machine.execXori rd rs1 imm s
  | .ori rd rs1 imm => Sys2Proof.Machine.execOri rd rs1 imm s
  | .andi rd rs1 imm => Sys2Proof.Machine.execAndi rd rs1 imm s
  | .slli rd rs1 shamt funct7 => Sys2Proof.Machine.execSlli rd rs1 shamt funct7 s
  | .srai rd rs1 shamt => Sys2Proof.Machine.execSrai rd rs1 shamt s
  | .srli rd rs1 shamt funct7 => Sys2Proof.Machine.execSrli rd rs1 shamt funct7 s
  | .lb rd rs1 imm => Sys2Proof.Machine.execLb rd rs1 imm s
  | .lh rd rs1 imm => Sys2Proof.Machine.execLh rd rs1 imm s
  | .lw rd rs1 imm => Sys2Proof.Machine.execLw rd rs1 imm s
  | .lbu rd rs1 imm => Sys2Proof.Machine.execLbu rd rs1 imm s
  | .lhu rd rs1 imm => Sys2Proof.Machine.execLhu rd rs1 imm s
  | .loadInvalid011 rd rs1 imm => Sys2Proof.Machine.execLoadInvalid011 rd rs1 imm s
  | .loadInvalid110 rd rs1 imm => Sys2Proof.Machine.execLoadInvalid110 rd rs1 imm s
  | .loadInvalid111 rd rs1 imm => Sys2Proof.Machine.execLoadInvalid111 rd rs1 imm s
  | .sb rs2 rs1 imm => Sys2Proof.Machine.execSb rs2 rs1 imm s
  | .sh rs2 rs1 imm => Sys2Proof.Machine.execSh rs2 rs1 imm s
  | .sw rs2 rs1 imm => Sys2Proof.Machine.execSw rs2 rs1 imm s
  | .storeInvalid011 rs2 rs1 imm => Sys2Proof.Machine.execStoreInvalid011 rs2 rs1 imm s
  | .storeInvalid100 rs2 rs1 imm => Sys2Proof.Machine.execStoreInvalid100 rs2 rs1 imm s
  | .storeInvalid101 rs2 rs1 imm => Sys2Proof.Machine.execStoreInvalid101 rs2 rs1 imm s
  | .storeInvalid110 rs2 rs1 imm => Sys2Proof.Machine.execStoreInvalid110 rs2 rs1 imm s
  | .storeInvalid111 rs2 rs1 imm => Sys2Proof.Machine.execStoreInvalid111 rs2 rs1 imm s
  | .fence rd rs1 imm funct3 => Sys2Proof.Machine.execFence rd rs1 imm funct3 s
  | .sentinel rd rs1 => Sys2Proof.Machine.execSentinel rd rs1 s
  | .ecall rd rs1 imm => Sys2Proof.Machine.execEcall rd rs1 imm s
  | .systemNop rd rs1 imm funct3 => Sys2Proof.Machine.execSystemNop rd rs1 imm funct3 s
  | .decodeFailure word => Sys2Proof.Machine.execDecodeFailure word s

end Sys2Proof.Machine
end

