-- ==== Sys2Proof/Machine/Step.lean ====
section
/-! DEFINITION. One step of the execution engine (40_execution_cycle.md R86), and where a program's word is placed so that
the next step fetches it. -/

namespace Sys2Proof.Machine

/-- One step: a latched fault is reported again (10_state.md R30); else fetch (R87), decode (R88), and the instruction's
execute, memory-access and writeback stages. -/
def step (s : State) : Host.Outcome State Fault Refusal :=
  match s.status with
  | .faulted f => raise f
  | .ready =>
    match fetch Config.reference s with
    | .error f => raise f
    | .ok w => exec (decodeWord Config.reference w) s

/-- `s` with a word placed where the next step fetches: at the pc if a word can be fetched there, else at `ENTRY`, to which
the pc is then set, as the driver's boot does after loading (70_reset_and_hazards.md R186); the latch is made Ready, since
a step in a faulted state runs nothing (log entry 5). -/
def State.withFetchWord (s : State) (nbits w : Nat) : State :=
  let pc := if inBounds Config.reference s.pc.toNat 4 then s.pc else Config.reference.entry
  { s with
    pc := pc
    mem := s.mem.writeAll pc.toNat (leBytes 4 (BitVec.ofNat 32 (w % 2 ^ nbits)))
    status := .ready }

end Sys2Proof.Machine
end

