-- ==== Sys2Proof/Machine/HostInterface.lean ====
section
/-! DEFINITION. What the core offers its host (70_reset_and_hazards.md R178, R181 to R186): reset, getPC, setPC, the loader's
writeBytes, step and dump, each a function on the whole state; and the driver's boot and loop. The host calls them one at
a time, between steps (R185). -/

namespace Sys2Proof.Machine

/-- What a step request returns to the host: Continue, Stop or Fault (40_execution_cycle.md R85, R96). -/
inductive StepReturn where
  | cont
  | stop
  | fault (f : Fault)
  /-- the model has no meaning for the instruction: never returned (no arm of `exec` refuses) -/
  | refused (r : Refusal)
deriving DecidableEq, Repr

/-- The boolean of R96 and R184: true for Continue, false for Stop; `none` for a fault, which returns no value. -/
def StepReturn.toBool? : StepReturn → Option Bool
  | .cont => some true
  | .stop => some false
  | .fault _ => none
  | .refused _ => none

/-- `reset()` (R178, R179): registers, pc and memory to zero, the latch to Ready; a new run, so no outputs yet. -/
def hostReset (_s : State) : State := State.reset

/-- `getPC()` (R181). -/
def getPC (s : State) : Word := s.pc

/-- `setPC(addr)`: stores `addr mod 2^32`, and touches nothing else (R181; 10_state.md R27). -/
def setPC (addr : Nat) (s : State) : State := s.setPc (BitVec.ofNat 32 addr)

/-- `writeBytes(address, bytes)`, the loader's write: 20_memory.md R40, R43; a failing one writes nothing and sets the latch
(R182; log entries 18, 19). -/
def hostWriteBytes (c : Config) (addr : Nat) (bytes : List Byte) (s : State) : State × Option Fault :=
  match s.mem.writeBytes c addr bytes with
  | .ok m => (s.setMem m, none)
  | .error f => (s.latchFault f, some f)

/-- `step()` as the host sees it (R184): the state it leaves, a fault's being the state before it with the latch set
(60_exceptions.md R165), and what it returns. -/
def hostStep (s : State) : State × StepReturn :=
  match step s with
  | .next t => (t, match t.signal with | .cont => .cont | .stop => .stop)
  | .fault f => (s.latchFault f, .fault f)
  | .refused r => (s, .refused r)

/-- The symbolic names `dump` shows with the registers (10_state.md R23). UNVERIFIED, log entry 20. -/
def abiNames : List String :=
  ["zero", "ra", "sp", "gp", "tp", "t0", "t1", "t2", "s0/fp", "s1", "a0", "a1", "a2", "a3", "a4", "a5"] ++
  ["a6", "a7", "s2", "s3", "s4", "s5", "s6", "s7", "s8", "s9", "s10", "s11", "t3", "t4", "t5", "t6"]

/-- `dump()`: the 32 register values with their names, and the pc (R183). -/
def dump (s : State) : List (String × Word) × Word :=
  (abiNames.zip ((List.range 32).map fun i => s.readReg (BitVec.ofNat 5 i)), s.pc)

/-- The host's operations. -/
inductive HostCall where
  | reset
  | getPC
  | setPC (addr : Nat)
  | writeBytes (addr : Nat) (bytes : List Byte)
  | step
  | dump
deriving DecidableEq, Repr

/-- What an operation returns. -/
inductive HostReply where
  | done
  | pcValue (pc : Word)
  | failed (f : Fault)
  | stepped (r : StepReturn)
  | dumped (regs : List (String × Word)) (pc : Word)
deriving DecidableEq, Repr

/-- One operation of the host on the machine. -/
def hostCall (call : HostCall) (s : State) : State × HostReply :=
  match call with
  | .reset => (hostReset s, .done)
  | .getPC => (s, .pcValue (getPC s))
  | .setPC addr => (setPC addr s, .done)
  | .writeBytes addr bytes =>
    match hostWriteBytes Config.reference addr bytes s with
    | (t, none) => (t, .done)
    | (t, some f) => (t, .failed f)
  | .step => ((hostStep s).1, .stepped (hostStep s).2)
  | .dump => (s, .dumped (dump s).1 (dump s).2)

/-- Load segments in order, later ones over earlier ones (R186); the first that fails ends the loading, its fault latched
(R182). -/
def loadSegments : List (Nat × List Byte) → State → State
  | [], s => s
  | (addr, bytes) :: rest, s =>
    match hostWriteBytes Config.reference addr bytes s with
    | (t, none) => loadSegments rest t
    | (t, some _) => t

/-- The driver's boot: reset, load, set the pc to `ENTRY` (R186). -/
def boot (segments : List (Nat × List Byte)) (s : State) : State :=
  setPC Config.reference.entry.toNat (loadSegments segments (hostReset s))

/-- The driver's loop, with the host's step limit (R185, R186): steps until one does not return Continue. -/
def drive : Nat → State → State × StepReturn
  | 0, s => (s, .cont)
  | n + 1, s =>
    match hostStep s with
    | (t, .cont) => drive n t
    | (t, r) => (t, r)

end Sys2Proof.Machine
end

