-- ==== Sys2Proof/Machine/Pseudocode.lean ====
section
/-! DEFINITION. The step as 40_execution_cycle.md R86 writes it, stage by stage over the decoded record of 30_encoding.md
R78, under any configuration. `step` does not use it: it is the spec's text to hold `step` against. -/

namespace Sys2Proof.Machine

/-- The pending memory request of a step, `Load(a, f3)` or `Store(a, f3, v)` (R86, stage 4). -/
inductive MemRequest where
  | load (a : Word) (funct3 : BitVec 3)
  | store (a : Word) (funct3 : BitVec 3) (v : Word)
deriving DecidableEq, Repr

/-- The variables of R86 that live inside one step (10_state.md R31). -/
structure Pending where
  wb : Bool := false
  link : Bool := false
  result : Word := 0#32
  target : Option Word := none
  mem : Option MemRequest := none
deriving DecidableEq, Repr

/-- What the execute stage of R86 ends in. -/
inductive Executed where
  /-- go on to the memory-access stage -/
  | pending (p : Pending)
  /-- emit a report event, then go on with nothing pending -/
  | report (r : Word)
  | stop
  | raised (f : Fault)
deriving DecidableEq, Repr

/-- R86, stage 4, one line per class. -/
def pseudoExecute (c : Config) (inst : Word) (d : Decoded) (vs1 vs2 pc report : Word) : Executed :=
  match d.opclass with
  | .lui => .pending { result := d.immU, wb := true }
  | .auipc => .pending { result := pc + d.immU, wb := true }
  | .jal => .pending { target := some (pc + d.immJ), link := true }
  | .jalr => .pending { target := some (vs1 + d.immI), link := true }
  | .branch =>
    match cond d.funct3 vs1 vs2 with
    | .ok taken => .pending { target := if taken then some (pc + d.immB) else none }
    | .error f => .raised f
  | .op => .pending { result := arith d.funct3 vs1 vs2 (altOp d.funct7), wb := true }
  | .opImm => .pending { result := arith d.funct3 vs1 d.immI (altOpImm d.funct3 d.funct7), wb := true }
  | .load => .pending { mem := some (.load (vs1 + d.immI) d.funct3), wb := true }
  | .store => .pending { mem := some (.store (vs1 + d.immS) d.funct3 vs2) }
  | .miscMem => .pending {}
  | .system =>
    if d.funct3 = c.sentinelFunct3 ∧ d.immI = imm12Word c.sentinelImm then .stop
    else if isEcall c inst then
      if unsignedLess c.failAbove report then .raised (.guestTestFailure report) else .report report
    else .pending {}

/-- R86, stage 5: the width is dispatched before the access. -/
def pseudoMemory (c : Config) (inst : Word) (p : Pending) (m : Memory) : Except Fault (Pending × Memory) :=
  match p.mem with
  | none => .ok (p, m)
  | some (.load a funct3) =>
    match funct3.toNat with
    | 0b000 => (m.memRead c a .byte).map fun v => ({ p with result := sext (v.setWidth 8) }, m)
    | 0b001 => (m.memRead c a .half).map fun v => ({ p with result := sext (v.setWidth 16) }, m)
    | 0b010 => (m.memRead c a .word).map fun v => ({ p with result := v }, m)
    | 0b100 => (m.memRead c a .byte).map fun v => ({ p with result := zext (v.setWidth 8) }, m)
    | 0b101 => (m.memRead c a .half).map fun v => ({ p with result := zext (v.setWidth 16) }, m)
    | _ => .error (.decodeFailure inst)
  | some (.store a funct3 v) =>
    match funct3.toNat with
    | 0b000 => (m.memWrite c a .byte v).map fun m' => (p, m')
    | 0b001 => (m.memWrite c a .half v).map fun m' => (p, m')
    | 0b010 => (m.memWrite c a .word v).map fun m' => (p, m')
    | _ => .error (.decodeFailure inst)

/-- R86, stage 6, over the pc captured at operand read; the step returns Continue. -/
def pseudoWriteback (rd : RegIdx) (p : Pending) (pc : Word) (s : State) : State :=
  match p.target with
  | some target =>
    let linked := if p.link then s.writeReg rd (pc + 4#32) else s
    { linked.setPc target with signal := .cont }
  | none =>
    let written := if p.wb then s.writeReg rd p.result else s
    { written.setPc (pc + 4#32) with signal := .cont }

/-- R86, stages 5 and 6. -/
def pseudoFinish (c : Config) (inst : Word) (d : Decoded) (p : Pending) (s : State) : Outcome :=
  match pseudoMemory c inst p s.mem with
  | .error f => raise f
  | .ok (p', m) => .next (pseudoWriteback d.rd p' s.pc (s.setMem m))

/-- `step()` of R86 under a configuration. -/
def pseudoStep (c : Config) (s : State) : Outcome :=
  match s.status with
  | .faulted f => raise f
  | .ready =>
    match s.mem.readWord c s.pc with
    | .error f => raise f
    | .ok inst =>
      match decodeRecord inst with
      | none => raise (.decodeFailure inst)
      | some d =>
        match pseudoExecute c inst d (s.readReg d.rs1) (s.readReg d.rs2) s.pc (s.readReg c.reportReg) with
        | .stop => stopStep s
        | .raised f => raise f
        | .report r => pseudoFinish c inst d {} (s.emitReport r)
        | .pending p => pseudoFinish c inst d p s

end Sys2Proof.Machine
end

