-- ==== Sys2Proof/Safety.lean ====
section
/-! DEFINITION. The terms claims use: the invariant of every state the machine can reach, what an instruction writes and
leaves unchanged, and what a safe run is. -/

namespace Sys2Proof.Machine

/-- The invariant: slot 0 of the register file is 0 (10_state.md R20, R21), memory has its canonical form, and every listed
byte lies in the window (20_memory.md R37, R51). -/
structure State.Inv (c : Config) (s : State) : Prop where
  slot_zero : s.regs[0] = 0#32
  mem_wf : s.mem.wf = true
  mem_within : s.mem.within c = true

/-- Nothing but the pc, the output `signal` and the events changed: registers, memory byte by byte, latch. -/
structure SameButPc (s t : State) : Prop where
  regs : ∀ r, t.readReg r = s.readReg r
  mem : ∀ a, t.mem.read a = s.mem.read a
  status : t.status = s.status

/-- `t` is `s` after an instruction that writes `v` to `rd` (nothing, where `rd` is x0) and `pc` to the pc, and returned
Continue: every other register, every byte of memory, the latch and the events are unchanged. -/
structure WroteReg (s t : State) (rd : RegIdx) (v pc : Word) : Prop where
  regs : ∀ r, t.readReg r = if r = 0#5 then 0#32 else if r = rd then v else s.readReg r
  mem : ∀ a, t.mem.read a = s.mem.read a
  pc_eq : t.pc = pc
  status : t.status = s.status
  signal : t.signal = .cont
  reports : t.reports = s.reports

/-- `t` is `s` after an instruction that writes `pc` to the pc and nothing else, and returned Continue. -/
structure WrotePcOnly (s t : State) (pc : Word) : Prop where
  same : SameButPc s t
  pc_eq : t.pc = pc
  signal : t.signal = .cont
  reports : t.reports = s.reports

/-- `t` is `s` after a store of the low `n` bytes of `v` at the addresses `ea`, …, `ea + n − 1`, least significant first, and
returned Continue: every other byte, every register, the latch and the events are unchanged. -/
structure WroteMem (s t : State) (ea n : Nat) (v : Word) (pc : Word) : Prop where
  regs : ∀ r, t.readReg r = s.readReg r
  stored : ∀ j, j < n → t.mem.read (ea + j) = v.extractLsb' (8 * j) 8
  mem : ∀ a, a < ea ∨ ea + n ≤ a → t.mem.read a = s.mem.read a
  pc_eq : t.pc = pc
  status : t.status = s.status
  signal : t.signal = .cont
  reports : t.reports = s.reports

/-- Nothing the architecture has changed: registers, pc, memory, latch, events (45_misc_system.md R157; 60_exceptions.md R165). -/
structure SameMachine (s t : State) : Prop where
  same : SameButPc s t
  pc_eq : t.pc = s.pc
  reports : t.reports = s.reports

/-- The value of the register-arithmetic and immediate-arithmetic instructions by selector and alternate form, in the words of
43_integer_alu.md R115 to R122 (`y` is x[rs2] or imm_i). -/
def aluResult (funct3 : BitVec 3) (alternate : Bool) (x y : Word) : Word :=
  if funct3 = 0b000#3 then (if alternate then x - y else x + y)
  else if funct3 = 0b001#3 then x <<< (y.toNat % 32)
  else if funct3 = 0b010#3 then (if x.toInt < y.toInt then 1#32 else 0#32)
  else if funct3 = 0b011#3 then (if x.toNat < y.toNat then 1#32 else 0#32)
  else if funct3 = 0b100#3 then x ^^^ y
  else if funct3 = 0b101#3 then (if alternate then x.sshiftRight (y.toNat % 32) else x >>> (y.toNat % 32))
  else if funct3 = 0b110#3 then x ||| y
  else x &&& y

/-- The branch predicates by selector (42_control_transfer.md R104 to R109): when a branch is taken. -/
def branchTaken (funct3 : BitVec 3) (x y : Word) : Prop :=
  (funct3 = 0b000#3 ∧ x = y) ∨ (funct3 = 0b001#3 ∧ x ≠ y) ∨ (funct3 = 0b100#3 ∧ x.toInt < y.toInt) ∨
    (funct3 = 0b101#3 ∧ y.toInt ≤ x.toInt) ∨ (funct3 = 0b110#3 ∧ x.toNat < y.toNat) ∨
    (funct3 = 0b111#3 ∧ y.toNat ≤ x.toNat)

/-- Two states no program and no host can tell apart but by the outputs of earlier steps: same registers as read, same pc,
same bytes, same latch. -/
structure SameHardware (s t : State) : Prop where
  regs : ∀ r, t.readReg r = s.readReg r
  mem : ∀ a, t.mem.read a = s.mem.read a
  pc_eq : t.pc = s.pc
  status : t.status = s.status

/-- `n` steps from `s` end in `t`, none of them a fault (60_exceptions.md R165): what a safe run is. -/
inductive SafeRun : Nat → State → State → Prop where
  | refl (s : State) : SafeRun 0 s s
  | step {n : Nat} {s t u : State} : step s = .next t → SafeRun n t u → SafeRun (n + 1) s u

/-- The states the host can bring the machine to from reset, by any operations between steps (70_reset_and_hazards.md R185). -/
inductive Reachable : State → Prop where
  | reset : Reachable State.reset
  | call {s : State} (op : HostCall) : Reachable s → Reachable (hostCall op s).1

end Sys2Proof.Machine
end

