-- ==== Sys2Proof/WellFormed.lean ====
section
/-! DEFINITION. Which terms of `Instr` are instructions: the constraints on operands that the types do not carry. -/

namespace Sys2Proof

/-- `i` is an instruction under the configuration `c`: some word decodes to it.
B and J offsets are even (30_encoding.md R64, R66); ADD, SRL and SRLI do not hold the alternate form's funct7 (R74, R75);
an ECALL and a SYSTEM-NOP are what the tests of R76, in their order, leave of the SYSTEM words; a DECODE-FAILURE word has
an opcode outside R68 (R69). Every other field takes every value of its type. -/
def Instr.wf (c : Config) : Instr → Bool
  | .jal _ offset => !offset.getLsbD 0
  | .beq _ _ offset | .bne _ _ offset | .blt _ _ offset | .bge _ _ offset | .bltu _ _ offset | .bgeu _ _ offset
  | .branchInvalid010 _ _ offset | .branchInvalid011 _ _ offset => !offset.getLsbD 0
  | .add _ _ _ funct7 | .srl _ _ _ funct7 | .srli _ _ _ funct7 => funct7 != altFunct7
  | .ecall rd rs1 imm => !isSentinel c 0b000#3 imm && isEcall c (iWord imm rs1 0b000#3 rd .system)
  | .systemNop rd rs1 imm funct3 => !isSentinel c funct3 imm && !isEcall c (iWord imm rs1 funct3 rd .system)
  | .decodeFailure w => (lookupClass (opcodeOf w)).isNone
  | .lui .. | .auipc .. | .jalr .. | .sub .. | .sll .. | .slt .. | .sltu .. | .xor .. | .sra .. | .or .. | .and ..
  | .addi .. | .slti .. | .sltiu .. | .xori .. | .ori .. | .andi .. | .slli .. | .srai ..
  | .lb .. | .lh .. | .lw .. | .lbu .. | .lhu .. | .loadInvalid011 .. | .loadInvalid110 .. | .loadInvalid111 ..
  | .sb .. | .sh .. | .sw .. | .storeInvalid011 .. | .storeInvalid100 .. | .storeInvalid101 .. | .storeInvalid110 ..
  | .storeInvalid111 .. | .fence .. | .sentinel .. => true

end Sys2Proof
end

