-- ==== Sys2Proof/Certificates/Slice0/Obligations.lean ====
section
/-! DEFINITION. The statements for the provers. Each docstring names the rule of spec/ it formalises, and what of it is the
spec's own decision D<n> or the model's choice. -/

open Sys2Proof Sys2Proof.Machine

/-! ## Encoding -/

/-- Under every configuration, the four bytes of every well-formed instruction decode to it, and the bytes after them are
left (30_encoding.md sections 1 to 5; the values are the spec's decision D2). -/
def Obligations.DecodeOfEncodeIsTheInstruction : Prop :=
  ∀ (c : Config) (i : Instr), i.wf c = true →
    ∀ rest : List Byte, decodeBytes c (leBytes 4 (encodeWord c i) ++ rest) = .ok (i, rest)

/-- Under every configuration, every one of the 2^32 words decodes to a well-formed instruction, and encoding that gives the
word back. That a word is one instruction and an instruction one word is the model's own choice, log entry 13: each constructor
carries the ignored bits too. The values are the spec's decision D2, log entry 10. -/
def Obligations.EncodeOfDecodeIsTheWord : Prop :=
  ∀ (c : Config) (w : Word), (decodeWord c w).wf c = true ∧ encodeWord c (decodeWord c w) = w

/-- Every word decodes to the instruction of the row opcode_table.json gives it: the matching row of smallest priority
(INDEX.md, "Reading `opcode_table.json`"; the ECALL row is written for funct3_only, D5, the model's choice, log entry 7). -/
def Obligations.DecoderPicksTheOpcodeTableRow : Prop :=
  ∀ w : Word, (tableRow w).map OpcodeRow.mnemonic = some (mnemonicOf (decodeWord Config.reference w))

/-- Words written out from the spec's encodings, one or more of every family, decode to the instructions they stand for
(95_test_vectors.md sections 2.1 to 2.9; the values are the spec's decision D2, log entry 10). That 0x30200073, MRET, is an
environment call is the model's choice of `ECALL_MATCH = funct3_only` (D5, log entry 7). -/
def Obligations.WrittenOutWordsDecode : Prop :=
  decodeWord Config.reference 0x123452B7#32 = .lui 5#5 0x12345#20 ∧
  decodeWord Config.reference 0xFFDFF06F#32 = .jal 0#5 (BitVec.ofInt 21 (-4)) ∧
  decodeWord Config.reference 0x004282E7#32 = .jalr 5#5 5#5 4#12 0#3 ∧
  decodeWord Config.reference 0xFE209CE3#32 = .bne 1#5 2#5 (BitVec.ofInt 13 (-8)) ∧
  decodeWord Config.reference 0x0020A463#32 = .branchInvalid010 1#5 2#5 8#13 ∧
  decodeWord Config.reference 0x022081B3#32 = .add 3#5 1#5 2#5 0b0000001#7 ∧
  decodeWord Config.reference 0x402081B3#32 = .sub 3#5 1#5 2#5 ∧
  decodeWord Config.reference 0x40008193#32 = .addi 3#5 1#5 0x400#12 ∧
  decodeWord Config.reference 0x4040D193#32 = .srai 3#5 1#5 4#5 ∧
  decodeWord Config.reference 0xFFC0A203#32 = .lw 4#5 1#5 (BitVec.ofInt 12 (-4)) ∧
  decodeWord Config.reference 0xFE208FA3#32 = .sb 2#5 1#5 (BitVec.ofInt 12 (-1)) ∧
  decodeWord Config.reference 0xC0001573#32 = .sentinel 10#5 0#5 ∧
  decodeWord Config.reference 0x30200073#32 = .ecall 0#5 0#5 0x302#12 ∧
  decodeWord Config.reference 0xC000D073#32 = .systemNop 0#5 1#5 0xC00#12 0b101#3 ∧
  decodeWord Config.reference 0x0000100F#32 = .fence 0#5 0#5 0#12 0b001#3 ∧
  decodeWord Config.reference 0x0000000B#32 = .decodeFailure 0x0000000B#32

/-- The value of each immediate is the weighted sum of the instruction bits that R62 to R66 place in it, bit 31 counting
negatively (the layouts are the spec's decision D2). -/
def Obligations.ImmediatesAreTheirWeightedBits : Prop :=
  ∀ w : Word,
    (imm12Word (immIOf w)).toInt = ((w.toNat / 2 ^ 20 % 2 ^ 11 : Nat) : Int) - 2 ^ 11 * (w.toNat / 2 ^ 31 : Nat) ∧
    (imm12Word (immSOf w)).toInt =
      ((w.toNat / 2 ^ 25 % 2 ^ 6 * 2 ^ 5 + w.toNat / 2 ^ 7 % 2 ^ 5 : Nat) : Int) - 2 ^ 11 * (w.toNat / 2 ^ 31 : Nat) ∧
    (immBWord (immBOf w)).toInt =
      ((w.toNat / 2 ^ 7 % 2 * 2 ^ 11 + w.toNat / 2 ^ 25 % 2 ^ 6 * 2 ^ 5 + w.toNat / 2 ^ 8 % 2 ^ 4 * 2 : Nat) : Int) -
        2 ^ 12 * (w.toNat / 2 ^ 31 : Nat) ∧
    (immUWord (immUOf w)).toNat = w.toNat / 2 ^ 12 * 2 ^ 12 ∧
    (immJWord (immJOf w)).toInt =
      ((w.toNat / 2 ^ 12 % 2 ^ 8 * 2 ^ 12 + w.toNat / 2 ^ 20 % 2 * 2 ^ 11 + w.toNat / 2 ^ 21 % 2 ^ 10 * 2 : Nat) : Int) -
        2 ^ 20 * (w.toNat / 2 ^ 31 : Nat)

/-- 30_encoding.md R69: a word whose opcode is none of the eleven makes the step raise DecodeFailure, whatever the registers
hold, and changes no state but the latch; 117 opcodes are such, every one whose low bits are not 11 among them, and those of
the all-zero and the all-ones word (the eleven values are the spec's decision D2, log entry 10). -/
def Obligations.OpcodesOutsideTheElevenFail : Prop :=
  let eleven : List (BitVec 7) :=
    [0b0110111, 0b0010111, 0b1101111, 0b1100111, 0b1100011, 0b0010011, 0b0110011, 0b0000011, 0b0100011, 0b0001111, 0b1110011]
  (∀ (s : State) (w : Word), s.status = .ready → fetch Config.reference s = .ok w → opcodeOf w ∉ eleven →
    step s = .fault (.decodeFailure w) ∧ hostStep s = (s.latchFault (.decodeFailure w), .fault (.decodeFailure w))) ∧
  (((List.range 128).map (BitVec.ofNat 7)).filter fun b => decide (b ∉ eleven)).length = 117 ∧
  (∀ w : Word, w.extractLsb' 0 2 ≠ 0b11#2 → opcodeOf w ∉ eleven) ∧
  opcodeOf 0x00000000#32 ∉ eleven ∧ opcodeOf 0xFFFFFFFF#32 ∉ eleven

/-- 30_encoding.md R79: a fetched word raises DecodeFailure exactly when its opcode is unknown or its load or store width is,
and InvalidOperation exactly when it is a branch of selector 010 or 011. Every other word executes: the step answers a next
state, or the word is a load or store and the fault is OutOfBounds, or the word is an environment call (`isEcall`, the test of
R158 under whichever value its parameter has) and the fault is GuestTestFailure. No step is refused. -/
def Obligations.IllegalEncodingsAreExactlyThese : Prop :=
  ∀ (s : State) (w : Word), s.status = .ready → fetch Config.reference s = .ok w →
    let undecodable : Prop :=
      lookupClass (opcodeOf w) = none ∨
      (lookupClass (opcodeOf w) = some .load ∧ funct3Of w ∈ [0b011#3, 0b110#3, 0b111#3]) ∨
      (lookupClass (opcodeOf w) = some .store ∧ funct3Of w ∈ [0b011#3, 0b100#3, 0b101#3, 0b110#3, 0b111#3])
    let unsupported : Prop := lookupClass (opcodeOf w) = some .branch ∧ funct3Of w ∈ [0b010#3, 0b011#3]
    ((∃ f, step s = .fault f ∧ f.kind = .decodeFailure) ↔ undecodable) ∧
    ((∃ f, step s = .fault f ∧ f.kind = .invalidOperation) ↔ unsupported) ∧
    (¬undecodable → ¬unsupported →
      (∃ t, step s = .next t) ∨
      (∃ f, step s = .fault f ∧ f.kind = .outOfBounds ∧
        (lookupClass (opcodeOf w) = some .load ∨ lookupClass (opcodeOf w) = some .store)) ∨
      (∃ f, step s = .fault f ∧ f.kind = .guestTestFailure ∧
        lookupClass (opcodeOf w) = some .system ∧ isEcall Config.reference w = true)) ∧
    (∀ r, step s ≠ .refused r)

/-! ## Registers and memory -/

/-- 10_state.md R20 and R21: after `x[i] <- v`, register j reads 0 for j = 0, v for j = i, and else what it read before;
nothing else changes. -/
def Obligations.RegisterWriteThenRead : Prop :=
  ∀ (s : State) (i j : RegIdx) (v : Word),
    (s.writeReg i v).readReg j = (if j = 0#5 then 0#32 else if j = i then v else s.readReg j) ∧
    (s.writeReg i v).pc = s.pc ∧ (s.writeReg i v).mem = s.mem ∧ (s.writeReg i v).status = s.status ∧
    (s.writeReg i v).signal = s.signal ∧ (s.writeReg i v).reports = s.reports ∧ s.writeReg 0#5 v = s

/-- 20_memory.md R39: `readWord` gives the four bytes, the lowest address in the least significant bits, or OutOfBounds
where the four bytes do not lie in the window; it is `MemRead(a, 4)`. -/
def Obligations.ReadWordIsLittleEndian : Prop :=
  ∀ (c : Config) (m : Memory) (a : Word),
    (0 ≤ (a.toNat : Int) - c.memBase ∧ (a.toNat : Int) - c.memBase + 4 ≤ c.memSize →
      m.readWord c a = .ok ((m.read a.toNat).setWidth 32 ||| (m.read (a.toNat + 1)).setWidth 32 <<< 8 |||
        (m.read (a.toNat + 2)).setWidth 32 <<< 16 ||| (m.read (a.toNat + 3)).setWidth 32 <<< 24)) ∧
    (¬(0 ≤ (a.toNat : Int) - c.memBase ∧ (a.toNat : Int) - c.memBase + 4 ≤ c.memSize) →
      ∃ f, m.readWord c a = .error f ∧ f.kind = .outOfBounds) ∧
    m.memRead c a .word = m.readWord c a

/-- 20_memory.md R40: `writeBytes` in bounds stores byte j at address a + j and changes no other byte; out of bounds it
answers OutOfBounds, and no memory. -/
def Obligations.WriteBytesStoresExactlyItsBytes : Prop :=
  ∀ (c : Config) (m : Memory) (a : Nat) (bytes : List Byte), m.wf = true →
    (0 ≤ (a : Int) - c.memBase ∧ (a : Int) - c.memBase + bytes.length ≤ c.memSize →
      ∃ m', m.writeBytes c a bytes = .ok m' ∧
        (∀ j (h : j < bytes.length), m'.read (a + j) = bytes[j]) ∧
        (∀ a', a' < a ∨ a + bytes.length ≤ a' → m'.read a' = m.read a')) ∧
    (¬(0 ≤ (a : Int) - c.memBase ∧ (a : Int) - c.memBase + bytes.length ≤ c.memSize) →
      ∃ f, m.writeBytes c a bytes = .error f ∧ f.kind = .outOfBounds)

/-- 20_memory.md R41: `MemWrite(a, n, v)` is `writeBytes` of the low n bytes of v, least significant first. -/
def Obligations.MemWriteIsWriteBytesOfTheLowBytes : Prop :=
  ∀ (c : Config) (m : Memory) (a v : Word),
    m.memWrite c a .byte v = m.writeBytes c a.toNat [v.extractLsb' 0 8] ∧
    m.memWrite c a .half v = m.writeBytes c a.toNat [v.extractLsb' 0 8, v.extractLsb' 8 8] ∧
    m.memWrite c a .word v =
      m.writeBytes c a.toNat [v.extractLsb' 0 8, v.extractLsb' 8 8, v.extractLsb' 16 8, v.extractLsb' 24 8]

/-- 20_memory.md R42, the spec's decision D4: a narrow read is the word at the address, masked, so that it fails in the last
three bytes of the window although its own bytes lie inside. -/
def Obligations.NarrowReadsAreCheckedOverFourBytes : Prop :=
  ∀ (c : Config) (m : Memory) (a : Word),
    m.memRead c a .byte = (m.readWord c a).map (fun v => v &&& 0xFF#32) ∧
    m.memRead c a .half = (m.readWord c a).map (fun v => v &&& 0xFFFF#32) ∧
    m.memRead c a .word = m.readWord c a ∧
    (c.memBase + c.memSize < a.toNat + 4 → ∀ w, m.memRead c a w = .error (.outOfBounds a.toNat 4))

/-- 20_memory.md R58 and R46, which the spec derives: a word stored in bounds reads back as a word at once, and byte by byte
its bytes lie least significant first. -/
def Obligations.StoredWordReadsBack : Prop :=
  ∀ (c : Config) (m : Memory) (a v : Word), m.wf = true → inBounds c a.toNat 4 = true →
    ∃ m', m.memWrite c a .word v = .ok m' ∧ m'.readWord c a = .ok v ∧
      ∀ j, j < 4 → m'.read (a.toNat + j) = v.extractLsb' (8 * j) 8

/-- The model's own choice, log entry 21: memories in canonical form that read alike at every address are equal data. -/
def Obligations.EqualMemoriesAreEqualData : Prop :=
  ∀ m m' : Memory, m.wf = true → m'.wf = true → (∀ a, m.read a = m'.read a) → m = m'

/-! ## The ALU and the BranchUnit -/

/-- 43_integer_alu.md R115 to R122: what each selector computes, in integers modulo 2^32, in the orders of signed and unsigned
integers, and bit by bit. -/
def Obligations.AluComputesItsEightSelectors : Prop :=
  ∀ (x y : Word) (alt : Bool),
    ((arith 0b000#3 x y false).toNat : Int) = ((x.toNat : Int) + y.toNat) % 2 ^ 32 ∧
    ((arith 0b000#3 x y true).toNat : Int) = ((x.toNat : Int) - y.toNat) % 2 ^ 32 ∧
    (arith 0b001#3 x y alt).toNat = x.toNat * 2 ^ (y.toNat % 32) % 2 ^ 32 ∧
    (arith 0b010#3 x y alt).toNat = (if x.toInt < y.toInt then 1 else 0) ∧
    (arith 0b011#3 x y alt).toNat = (if x.toNat < y.toNat then 1 else 0) ∧
    (∀ i, i < 32 → (arith 0b100#3 x y alt).getLsbD i = (x.getLsbD i ^^ y.getLsbD i)) ∧
    (arith 0b101#3 x y false).toNat = x.toNat / 2 ^ (y.toNat % 32) ∧
    (∀ i, i < 32 → (arith 0b101#3 x y true).getLsbD i =
      if i + y.toNat % 32 < 32 then x.getLsbD (i + y.toNat % 32) else x.getLsbD 31) ∧
    (∀ i, i < 32 → (arith 0b110#3 x y alt).getLsbD i = (x.getLsbD i || y.getLsbD i)) ∧
    (∀ i, i < 32 → (arith 0b111#3 x y alt).getLsbD i = (x.getLsbD i && y.getLsbD i))

/-- 42_control_transfer.md R100 and R101: for the six supported selectors the BranchUnit answers whether the predicate holds,
over signed and unsigned integers; for the two others it raises InvalidOperation (the selector values are D2's). -/
def Obligations.BranchUnitDecidesItsPredicates : Prop :=
  ∀ (selector : BitVec 3) (x y : Word),
    (selector ≠ 0b010#3 → selector ≠ 0b011#3 →
      ∃ taken, cond selector x y = .ok taken ∧ (taken = true ↔ branchTaken selector x y)) ∧
    (selector = 0b010#3 ∨ selector = 0b011#3 → cond selector x y = .error (.invalidOperation selector))

/-! ## What each instruction does: result, completion and frame -/

/-- LUI and AUIPC complete: rd gets imm_u, or PC + imm_u, the pc advances, nothing else changes (41_upper_immediate.md). -/
def Obligations.UpperImmediatesComplete : Prop :=
  ∀ (s : State) (rd : RegIdx) (imm20 : BitVec 20),
    (∃ t, exec (.lui rd imm20) s = .next t ∧
      WroteReg s t rd (BitVec.ofNat 32 (imm20.toNat * 4096)) (s.pc + 4#32)) ∧
    (∃ t, exec (.auipc rd imm20) s = .next t ∧
      WroteReg s t rd (s.pc + BitVec.ofNat 32 (imm20.toNat * 4096)) (s.pc + 4#32))

/-- JAL and JALR complete for every destination, x0 and rd = rs1 included: rd gets PC + 4, the pc gets PC + imm_j, or the old
x[rs1] + imm_i with bit 0 kept, and nothing else changes; JALR's funct3 is ignored (42_control_transfer.md section 2; D13). -/
def Obligations.JumpsCompleteAndLink : Prop :=
  ∀ (s : State) (rd rs1 : RegIdx) (offset : BitVec 21) (imm : BitVec 12) (funct3 : BitVec 3),
    (∃ t, exec (.jal rd offset) s = .next t ∧
      WroteReg s t rd (s.pc + 4#32) (s.pc + BitVec.ofInt 32 offset.toInt)) ∧
    (∃ t, exec (.jalr rd rs1 imm funct3) s = .next t ∧
      WroteReg s t rd (s.pc + 4#32) (s.readReg rs1 + BitVec.ofInt 32 imm.toInt))

/-- The six branches complete: the pc gets PC + imm_b where the predicate holds and PC + 4 where it does not; no register and
no byte changes (42_control_transfer.md section 3). -/
def Obligations.BranchesComplete : Prop :=
  ∀ (s : State) (rs1 rs2 : RegIdx) (offset : BitVec 13),
    let x := s.readReg rs1
    let y := s.readReg rs2
    let taken := s.pc + BitVec.ofInt 32 offset.toInt
    let next := s.pc + 4#32
    (∃ t, exec (.beq rs1 rs2 offset) s = .next t ∧ WrotePcOnly s t (if x = y then taken else next)) ∧
    (∃ t, exec (.bne rs1 rs2 offset) s = .next t ∧ WrotePcOnly s t (if x = y then next else taken)) ∧
    (∃ t, exec (.blt rs1 rs2 offset) s = .next t ∧ WrotePcOnly s t (if x.toInt < y.toInt then taken else next)) ∧
    (∃ t, exec (.bge rs1 rs2 offset) s = .next t ∧ WrotePcOnly s t (if x.toInt < y.toInt then next else taken)) ∧
    (∃ t, exec (.bltu rs1 rs2 offset) s = .next t ∧ WrotePcOnly s t (if x.toNat < y.toNat then taken else next)) ∧
    (∃ t, exec (.bgeu rs1 rs2 offset) s = .next t ∧ WrotePcOnly s t (if x.toNat < y.toNat then next else taken))

/-- The ten register-arithmetic instructions complete, whatever the ignored funct7: rd gets the result, the pc advances,
nothing else changes (43_integer_alu.md section 2). -/
def Obligations.RegisterAluCompletes : Prop :=
  ∀ (s : State) (rd rs1 rs2 : RegIdx) (funct7 : BitVec 7),
    let x := s.readReg rs1
    let y := s.readReg rs2
    (∃ t, exec (.add rd rs1 rs2 funct7) s = .next t ∧ WroteReg s t rd (x + y) (s.pc + 4#32)) ∧
    (∃ t, exec (.sub rd rs1 rs2) s = .next t ∧ WroteReg s t rd (x - y) (s.pc + 4#32)) ∧
    (∃ t, exec (.sll rd rs1 rs2 funct7) s = .next t ∧ WroteReg s t rd (x <<< (y.toNat % 32)) (s.pc + 4#32)) ∧
    (∃ t, exec (.slt rd rs1 rs2 funct7) s = .next t ∧
      WroteReg s t rd (if x.toInt < y.toInt then 1#32 else 0#32) (s.pc + 4#32)) ∧
    (∃ t, exec (.sltu rd rs1 rs2 funct7) s = .next t ∧
      WroteReg s t rd (if x.toNat < y.toNat then 1#32 else 0#32) (s.pc + 4#32)) ∧
    (∃ t, exec (.xor rd rs1 rs2 funct7) s = .next t ∧ WroteReg s t rd (x ^^^ y) (s.pc + 4#32)) ∧
    (∃ t, exec (.srl rd rs1 rs2 funct7) s = .next t ∧ WroteReg s t rd (x >>> (y.toNat % 32)) (s.pc + 4#32)) ∧
    (∃ t, exec (.sra rd rs1 rs2) s = .next t ∧ WroteReg s t rd (x.sshiftRight (y.toNat % 32)) (s.pc + 4#32)) ∧
    (∃ t, exec (.or rd rs1 rs2 funct7) s = .next t ∧ WroteReg s t rd (x ||| y) (s.pc + 4#32)) ∧
    (∃ t, exec (.and rd rs1 rs2 funct7) s = .next t ∧ WroteReg s t rd (x &&& y) (s.pc + 4#32))

/-- The nine immediate-arithmetic instructions complete, whatever the ignored bits: rd gets the result, the pc advances,
nothing else changes (43_integer_alu.md section 3). -/
def Obligations.ImmediateAluCompletes : Prop :=
  ∀ (s : State) (rd rs1 : RegIdx) (imm : BitVec 12) (shamt : BitVec 5) (funct7 : BitVec 7),
    let x := s.readReg rs1
    let y : Word := BitVec.ofInt 32 imm.toInt
    (∃ t, exec (.addi rd rs1 imm) s = .next t ∧ WroteReg s t rd (x + y) (s.pc + 4#32)) ∧
    (∃ t, exec (.slti rd rs1 imm) s = .next t ∧
      WroteReg s t rd (if x.toInt < imm.toInt then 1#32 else 0#32) (s.pc + 4#32)) ∧
    (∃ t, exec (.sltiu rd rs1 imm) s = .next t ∧
      WroteReg s t rd (if x.toNat < y.toNat then 1#32 else 0#32) (s.pc + 4#32)) ∧
    (∃ t, exec (.xori rd rs1 imm) s = .next t ∧ WroteReg s t rd (x ^^^ y) (s.pc + 4#32)) ∧
    (∃ t, exec (.ori rd rs1 imm) s = .next t ∧ WroteReg s t rd (x ||| y) (s.pc + 4#32)) ∧
    (∃ t, exec (.andi rd rs1 imm) s = .next t ∧ WroteReg s t rd (x &&& y) (s.pc + 4#32)) ∧
    (∃ t, exec (.slli rd rs1 shamt funct7) s = .next t ∧ WroteReg s t rd (x <<< shamt.toNat) (s.pc + 4#32)) ∧
    (∃ t, exec (.srli rd rs1 shamt funct7) s = .next t ∧ WroteReg s t rd (x >>> shamt.toNat) (s.pc + 4#32)) ∧
    (∃ t, exec (.srai rd rs1 shamt) s = .next t ∧ WroteReg s t rd (x.sshiftRight shamt.toNat) (s.pc + 4#32))

/-- The five loads complete where the four bytes at EA lie in the window: rd gets the bytes read, extended, the pc advances,
nothing else changes; no alignment is asked (44_load_store.md section 2; the four-byte check is D4). -/
def Obligations.LoadsComplete : Prop :=
  ∀ (s : State) (rd rs1 : RegIdx) (imm : BitVec 12),
    let ea := (effectiveAddress s rs1 imm).toNat
    let b (j : Nat) : Byte := s.mem.read (ea + j)
    inBounds Config.reference ea 4 = true →
    (∃ t, exec (.lb rd rs1 imm) s = .next t ∧ WroteReg s t rd ((b 0).signExtend 32) (s.pc + 4#32)) ∧
    (∃ t, exec (.lh rd rs1 imm) s = .next t ∧ WroteReg s t rd ((b 1 ++ b 0).signExtend 32) (s.pc + 4#32)) ∧
    (∃ t, exec (.lw rd rs1 imm) s = .next t ∧ WroteReg s t rd (b 3 ++ b 2 ++ b 1 ++ b 0) (s.pc + 4#32)) ∧
    (∃ t, exec (.lbu rd rs1 imm) s = .next t ∧ WroteReg s t rd ((b 0).setWidth 32) (s.pc + 4#32)) ∧
    (∃ t, exec (.lhu rd rs1 imm) s = .next t ∧ WroteReg s t rd ((b 1 ++ b 0).setWidth 32) (s.pc + 4#32))

/-- The three stores complete where their own bytes lie in the window: the bytes at EA become the low bytes of x[rs2], every
other byte, every register, the latch and the events stay, the pc advances (44_load_store.md section 3). -/
def Obligations.StoresComplete : Prop :=
  ∀ (s : State) (rs2 rs1 : RegIdx) (imm : BitVec 12), s.mem.wf = true →
    let ea := (effectiveAddress s rs1 imm).toNat
    let v := s.readReg rs2
    (inBounds Config.reference ea 1 = true →
      ∃ t, exec (.sb rs2 rs1 imm) s = .next t ∧ WroteMem s t ea 1 v (s.pc + 4#32)) ∧
    (inBounds Config.reference ea 2 = true →
      ∃ t, exec (.sh rs2 rs1 imm) s = .next t ∧ WroteMem s t ea 2 v (s.pc + 4#32)) ∧
    (inBounds Config.reference ea 4 = true →
      ∃ t, exec (.sw rs2 rs1 imm) s = .next t ∧ WroteMem s t ea 4 v (s.pc + 4#32))

/-- A load whose four bytes, or a store whose own bytes, do not lie in the window raises OutOfBounds with the address and the
width checked (44_load_store.md; 60_exceptions.md R164; the loads' four bytes are D4, the datum D8). -/
def Obligations.AccessesOutsideTheWindowFault : Prop :=
  ∀ (s : State) (rd rs2 rs1 : RegIdx) (imm : BitVec 12),
    let ea := (effectiveAddress s rs1 imm).toNat
    (inBounds Config.reference ea 4 = false →
      ∀ i ∈ [Instr.lb rd rs1 imm, .lh rd rs1 imm, .lw rd rs1 imm, .lbu rd rs1 imm, .lhu rd rs1 imm],
        exec i s = .fault (.outOfBounds ea 4)) ∧
    (inBounds Config.reference ea 1 = false → exec (.sb rs2 rs1 imm) s = .fault (.outOfBounds ea 1)) ∧
    (inBounds Config.reference ea 2 = false → exec (.sh rs2 rs1 imm) s = .fault (.outOfBounds ea 2)) ∧
    (inBounds Config.reference ea 4 = false → exec (.sw rs2 rs1 imm) s = .fault (.outOfBounds ea 4))

/-- The encodings that fault do so in every state, whatever the address: the two unsupported branch selectors with
InvalidOperation of the selector, the eight unrecognised widths and the unknown opcode with DecodeFailure of the word
(42_control_transfer.md R110; 44_load_store.md R150, R154; 30_encoding.md R69; widths before addresses and the data are D8). -/
def Obligations.FaultingEncodingsAlwaysFault : Prop :=
  ∀ (s : State) (rd rs2 rs1 : RegIdx) (imm : BitVec 12) (offset : BitVec 13) (word : Word),
    exec (.branchInvalid010 rs1 rs2 offset) s = .fault (.invalidOperation 0b010#3) ∧
    exec (.branchInvalid011 rs1 rs2 offset) s = .fault (.invalidOperation 0b011#3) ∧
    (∀ i ∈ [Instr.loadInvalid011 rd rs1 imm, .loadInvalid110 rd rs1 imm, .loadInvalid111 rd rs1 imm,
        .storeInvalid011 rs2 rs1 imm, .storeInvalid100 rs2 rs1 imm, .storeInvalid101 rs2 rs1 imm,
        .storeInvalid110 rs2 rs1 imm, .storeInvalid111 rs2 rs1 imm, .decodeFailure word],
      exec i s = .fault (.decodeFailure (encode i)))

/-- FENCE and every SYSTEM-NOP complete: only the pc advances; in particular rd is not written (45_misc_system.md R156, R161). -/
def Obligations.NoOpsOnlyAdvanceThePc : Prop :=
  ∀ (s : State) (rd rs1 : RegIdx) (imm : BitVec 12) (funct3 : BitVec 3),
    (∃ t, exec (.fence rd rs1 imm funct3) s = .next t ∧ WrotePcOnly s t (s.pc + 4#32)) ∧
    (∃ t, exec (.systemNop rd rs1 imm funct3) s = .next t ∧ WrotePcOnly s t (s.pc + 4#32))

/-- The sentinel completes with Stop and changes nothing else; where it was fetched, the next step fetches it and stops again
(45_misc_system.md R157, the spec's decisions D6 and D10; that Stop is kept in `signal` is log entry 3). -/
def Obligations.SentinelStopsAndStopsAgain : Prop :=
  ∀ (s : State) (rd rs1 : RegIdx),
    ∃ t, exec (.sentinel rd rs1) s = .next t ∧ t.signal = .stop ∧ SameMachine s t ∧
      ∀ w, s.status = .ready → fetch Config.reference s = .ok w →
        decodeWord Config.reference w = .sentinel rd rs1 → step s = .next t ∧ step t = .next t

/-- The environment call reads x3: at 0 and 1 it completes, emits the value as a report, the pass and the informational
signal, and advances the pc and nothing else; above 1, unsigned, it raises GuestTestFailure of the value (45_misc_system.md
R159; the values are the reference configuration's; events kept in `reports` are D7 and log entry 4). -/
def Obligations.EnvironmentCallReportsOrFails : Prop :=
  ∀ (s : State) (rd rs1 : RegIdx) (imm : BitVec 12),
    let r := s.readReg 3#5
    (r.toNat ≤ 1 → ∃ t, exec (.ecall rd rs1 imm) s = .next t ∧ SameButPc s t ∧ t.pc = s.pc + 4#32 ∧ t.signal = .cont ∧
      t.reports = s.reports ++ [r] ∧
      reportSignal Config.reference r = some (if r = 0#32 then .pass else .informational)) ∧
    (1 < r.toNat → exec (.ecall rd rs1 imm) s = .fault (.guestTestFailure r))

/-- The bits the spec's decision D13 says are ignored do not matter to what an instruction does (30_encoding.md R77). -/
def Obligations.IgnoredFieldsDoNotMatter : Prop :=
  ∀ (s : State) (rd rs1 rs2 rd' rs1' shamt : RegIdx) (imm imm' : BitVec 12) (f f' : BitVec 3) (g g' : BitVec 7),
    exec (.jalr rd rs1 imm f) s = exec (.jalr rd rs1 imm f') s ∧
    exec (.fence rd rs1 imm f) s = exec (.fence rd' rs1' imm' f') s ∧
    exec (.systemNop rd rs1 imm f) s = exec (.systemNop rd' rs1' imm' f') s ∧
    exec (.ecall rd rs1 imm) s = exec (.ecall rd' rs1' imm') s ∧
    exec (.sentinel rd rs1) s = exec (.sentinel rd' rs1') s ∧
    exec (.add rd rs1 rs2 g) s = exec (.add rd rs1 rs2 g') s ∧
    exec (.sll rd rs1 rs2 g) s = exec (.sll rd rs1 rs2 g') s ∧
    exec (.slt rd rs1 rs2 g) s = exec (.slt rd rs1 rs2 g') s ∧
    exec (.sltu rd rs1 rs2 g) s = exec (.sltu rd rs1 rs2 g') s ∧
    exec (.xor rd rs1 rs2 g) s = exec (.xor rd rs1 rs2 g') s ∧
    exec (.srl rd rs1 rs2 g) s = exec (.srl rd rs1 rs2 g') s ∧
    exec (.or rd rs1 rs2 g) s = exec (.or rd rs1 rs2 g') s ∧
    exec (.and rd rs1 rs2 g) s = exec (.and rd rs1 rs2 g') s ∧
    exec (.slli rd rs1 shamt g) s = exec (.slli rd rs1 shamt g') s ∧
    exec (.srli rd rs1 shamt g) s = exec (.srli rd rs1 shamt g') s

/-! ## What the step does with each fetched word, by the rules' own encodings -/

/-- 41_upper_immediate.md R98 and R99. -/
def Obligations.UpperImmediateWordsRun : Prop :=
  ∀ (s : State) (w : Word), s.status = .ready → fetch Config.reference s = .ok w →
    (opcodeOf w = 0b0110111#7 →
      ∃ t, step s = .next t ∧ WroteReg s t (rdOf w) (w &&& 0xFFFFF000#32) (s.pc + 4#32)) ∧
    (opcodeOf w = 0b0010111#7 →
      ∃ t, step s = .next t ∧ WroteReg s t (rdOf w) (s.pc + (w &&& 0xFFFFF000#32)) (s.pc + 4#32))

/-- 42_control_transfer.md R102. -/
def Obligations.JalWordsRun : Prop :=
  ∀ (s : State) (w : Word), s.status = .ready → fetch Config.reference s = .ok w → opcodeOf w = 0b1101111#7 →
    ∃ t, step s = .next t ∧ WroteReg s t (rdOf w) (s.pc + 4#32) (s.pc + immJWord (immJOf w))

/-- 42_control_transfer.md R103; that funct3 is not checked is the spec's decision D13, that bit 0 is kept its resolution C8. -/
def Obligations.JalrWordsRun : Prop :=
  ∀ (s : State) (w : Word), s.status = .ready → fetch Config.reference s = .ok w → opcodeOf w = 0b1100111#7 →
    ∃ t, step s = .next t ∧
      WroteReg s t (rdOf w) (s.pc + 4#32) (s.readReg (rs1Of w) + imm12Word (immIOf w))

/-- 42_control_transfer.md R104 to R110: a fetched branch word goes to PC + imm_b if its predicate holds and to PC + 4 if not,
and writes nothing else; with selector 010 or 011 the step raises InvalidOperation, leaving the state with the latch set. -/
def Obligations.BranchWordsRun : Prop :=
  ∀ (s : State) (w : Word), s.status = .ready → fetch Config.reference s = .ok w → opcodeOf w = 0b1100011#7 →
    let taken := branchTaken (funct3Of w) (s.readReg (rs1Of w)) (s.readReg (rs2Of w))
    (funct3Of w ≠ 0b010#3 → funct3Of w ≠ 0b011#3 →
      ∃ t, step s = .next t ∧ (taken → WrotePcOnly s t (s.pc + immBWord (immBOf w))) ∧
        (¬taken → WrotePcOnly s t (s.pc + 4#32))) ∧
    (funct3Of w = 0b010#3 ∨ funct3Of w = 0b011#3 →
      ∃ f, step s = .fault f ∧ f.kind = .invalidOperation ∧ hostStep s = (s.latchFault f, .fault f))

/-- 43_integer_alu.md R125 to R134 with the alternate form of 30_encoding.md R74. -/
def Obligations.RegisterAluWordsRun : Prop :=
  ∀ (s : State) (w : Word), s.status = .ready → fetch Config.reference s = .ok w → opcodeOf w = 0b0110011#7 →
    ∃ t, step s = .next t ∧
      WroteReg s t (rdOf w)
        (aluResult (funct3Of w) (decide (funct7Of w = 0b0100000#7)) (s.readReg (rs1Of w)) (s.readReg (rs2Of w)))
        (s.pc + 4#32)

/-- 43_integer_alu.md R135 to R143 with the alternate form of 30_encoding.md R75: only with funct3 101. -/
def Obligations.ImmediateAluWordsRun : Prop :=
  ∀ (s : State) (w : Word), s.status = .ready → fetch Config.reference s = .ok w → opcodeOf w = 0b0010011#7 →
    ∃ t, step s = .next t ∧
      WroteReg s t (rdOf w)
        (aluResult (funct3Of w) (decide (funct3Of w = 0b101#3 ∧ funct7Of w = 0b0100000#7)) (s.readReg (rs1Of w))
          (imm12Word (immIOf w)))
        (s.pc + 4#32)

/-- 44_load_store.md R145 to R149: rd gets `sext_8`, `sext_16`, `zext_8`, `zext_16` of MemRead(EA, n), or the word, and the pc
advances; where MemRead fails, the step raises its fault. -/
def Obligations.LoadWordsRun : Prop :=
  ∀ (s : State) (w : Word), s.status = .ready → fetch Config.reference s = .ok w → opcodeOf w = 0b0000011#7 →
    let ea := s.readReg (rs1Of w) + imm12Word (immIOf w)
    let loads (width : Width) (value : Word → Word) : Prop :=
      (∀ v, s.mem.memRead Config.reference ea width = .ok v →
        ∃ t, step s = .next t ∧ WroteReg s t (rdOf w) (value v) (s.pc + 4#32)) ∧
      (∀ f, s.mem.memRead Config.reference ea width = .error f → step s = .fault f)
    (funct3Of w = 0b000#3 → loads .byte fun v => (v.extractLsb' 0 8).signExtend 32) ∧
    (funct3Of w = 0b001#3 → loads .half fun v => (v.extractLsb' 0 16).signExtend 32) ∧
    (funct3Of w = 0b010#3 → loads .word fun v => v) ∧
    (funct3Of w = 0b100#3 → loads .byte fun v => (v.extractLsb' 0 8).setWidth 32) ∧
    (funct3Of w = 0b101#3 → loads .half fun v => (v.extractLsb' 0 16).setWidth 32)

/-- 44_load_store.md R151 to R153: the low bytes of x[rs2] go to EA on, least significant first, and nothing else but the pc
changes; where they do not all lie in the window, the step raises OutOfBounds; a word stored over the next instruction is
what the next step fetches. -/
def Obligations.StoreWordsRun : Prop :=
  ∀ (s : State) (w : Word), s.mem.wf = true → s.status = .ready → fetch Config.reference s = .ok w →
    opcodeOf w = 0b0100011#7 →
    let ea := (s.readReg (rs1Of w) + imm12Word (immSOf w)).toNat
    let stores (n : Nat) : Prop :=
      (inBounds Config.reference ea n = true →
        ∃ t, step s = .next t ∧ WroteMem s t ea n (s.readReg (rs2Of w)) (s.pc + 4#32)) ∧
      (inBounds Config.reference ea n = false → ∃ f, step s = .fault f ∧ f.kind = .outOfBounds)
    (funct3Of w = 0b000#3 → stores 1) ∧ (funct3Of w = 0b001#3 → stores 2) ∧ (funct3Of w = 0b010#3 → stores 4) ∧
    (funct3Of w = 0b010#3 → ea = (s.pc + 4#32).toNat → inBounds Config.reference ea 4 = true →
      ∃ t, step s = .next t ∧ fetch Config.reference t = .ok (s.readReg (rs2Of w)))

/-- 45_misc_system.md R156 and R161: every MISC-MEM word, and every SYSTEM word that is neither the sentinel nor an environment
call, is a no-op that advances the pc. -/
def Obligations.NoOpWordsRun : Prop :=
  ∀ (s : State) (w : Word), s.status = .ready → fetch Config.reference s = .ok w →
    opcodeOf w = 0b0001111#7 ∨
      (opcodeOf w = 0b1110011#7 ∧ isSentinel Config.reference (funct3Of w) (immIOf w) = false ∧
        isEcall Config.reference w = false) →
    ∃ t, step s = .next t ∧ WrotePcOnly s t (s.pc + 4#32)

/-! ## The step -/

/-- A step runs the decoded instruction: where the latch is Ready and the four bytes at the pc lie in the window and decode to
`i`, then `i` is well-formed and the step is `exec i` at that same state, with nothing around it; where they do not, it raises
OutOfBounds of the pc and 4 (the datum is the spec's decision D8). -/
def Obligations.StepRunsTheDecodedInstruction : Prop :=
  ∀ s : State, s.status = .ready →
    (inBounds Config.reference s.pc.toNat 4 = true →
      ∀ (i : Instr) (rest : List Byte),
        decode [s.mem.read s.pc.toNat, s.mem.read (s.pc.toNat + 1), s.mem.read (s.pc.toNat + 2),
          s.mem.read (s.pc.toNat + 3)] = .ok (i, rest) →
        i.wf Config.reference = true ∧ step s = exec i s) ∧
    (inBounds Config.reference s.pc.toNat 4 = false → step s = .fault (.outOfBounds s.pc.toNat 4))

/-- In every state the step, made of one meaning per instruction, is the step 40_execution_cycle.md R86 writes stage by stage
over the decoded record (`pseudoStep`). Beside R86 the equality covers what is the model's or the spec's own choice: the latch
with its datum (D9, log entries 2, 15), the fault data and the width before the address (D8, log entry 14), `signal` and
`reports` (log entries 3, 4), the reference configuration and `funct3_only` (D15, D5, log entries 6, 7); that the two forms
stand side by side is log entry 25. -/
def Obligations.StepIsThePseudocodeStep : Prop := ∀ s : State, step s = pseudoStep Config.reference s

/-- 40_execution_cycle.md R87: fetch reads the word at the pc, whatever the pc's low bits; a pc whose four bytes are not in the
window makes the step raise OutOfBounds. -/
def Obligations.FetchReadsTheWordAtThePcOrFaults : Prop :=
  ∀ s : State, s.status = .ready →
    (inBounds Config.reference s.pc.toNat 4 = true →
      fetch Config.reference s = .ok (s.mem.read (s.pc.toNat + 3) ++ s.mem.read (s.pc.toNat + 2) ++
        s.mem.read (s.pc.toNat + 1) ++ s.mem.read s.pc.toNat)) ∧
    (inBounds Config.reference s.pc.toNat 4 = false → ∃ f, step s = .fault f ∧ f.kind = .outOfBounds)

/-- 10_state.md R30, the spec's decision D9: in a faulted state a step reports the latched fault and changes nothing; setPC and
writeBytes in bounds leave the latch set; reset clears it. -/
def Obligations.LatchedFaultStaysUntilReset : Prop :=
  ∀ (s : State) (f : Fault) (addr : Nat) (bytes : List Byte), s.status = .faulted f →
    step s = .fault f ∧ hostStep s = (s, .fault f) ∧ (setPC addr s).status = .faulted f ∧
    (inBounds Config.reference addr bytes.length = true →
      (hostWriteBytes Config.reference addr bytes s).1.status = .faulted f) ∧
    (hostReset s).status = .ready

/-- 40_execution_cycle.md R93 (its second half) with 10_state.md R30: a step that raises a fault leaves every register, the pc,
every byte and the events as they were and sets the latch; a step that stops leaves them and the latch as they were. -/
def Obligations.FaultsAndStopsChangeNothing : Prop :=
  ∀ s : State,
    (∀ f, step s = .fault f → (hostStep s).2 = .fault f ∧ (hostStep s).1 = s.latchFault f ∧
      (∀ r, (hostStep s).1.readReg r = s.readReg r) ∧ (hostStep s).1.pc = s.pc ∧ (hostStep s).1.mem = s.mem ∧
      (hostStep s).1.reports = s.reports ∧ (hostStep s).1.status = .faulted f) ∧
    (∀ t, step s = .next t → t.signal = .stop → (hostStep s).2 = .stop ∧ SameMachine s t)

/-- 40_execution_cycle.md R95: a step writes at most rd of the fetched word; the pc after a step that continues is PC + 4 but for
a jump's or a taken branch's target. -/
def Obligations.StepWritesAtMostRdAndThePcOnce : Prop :=
  ∀ (s t : State) (w : Word), fetch Config.reference s = .ok w → step s = .next t →
    (∀ r, r ≠ rdOf w → t.readReg r = s.readReg r) ∧
    (t.signal = .cont →
      (opcodeOf w = 0b1101111#7 → t.pc = s.pc + immJWord (immJOf w)) ∧
      (opcodeOf w = 0b1100111#7 → t.pc = s.readReg (rs1Of w) + imm12Word (immIOf w)) ∧
      (opcodeOf w = 0b1100011#7 →
        (branchTaken (funct3Of w) (s.readReg (rs1Of w)) (s.readReg (rs2Of w)) → t.pc = s.pc + immBWord (immBOf w)) ∧
        (¬branchTaken (funct3Of w) (s.readReg (rs1Of w)) (s.readReg (rs2Of w)) → t.pc = s.pc + 4#32)) ∧
      (opcodeOf w ∉ [0b1101111#7, 0b1100111#7, 0b1100011#7] → t.pc = s.pc + 4#32))

/-- A rule of the whole machine (20_memory.md sections 2 and 5): a step changes a byte only if the fetched word is a store, and
then only a byte of the width stored, from EA on. -/
def Obligations.OnlyStoresChangeMemory : Prop :=
  ∀ (s t : State) (w : Word), s.mem.wf = true → fetch Config.reference s = .ok w → step s = .next t →
    (opcodeOf w ≠ 0b0100011#7 → ∀ a, t.mem.read a = s.mem.read a) ∧
    (opcodeOf w = 0b0100011#7 →
      let ea := (s.readReg (rs1Of w) + imm12Word (immSOf w)).toNat
      ∀ a, a < ea ∨ ea + 2 ^ (funct3Of w).toNat ≤ a → t.mem.read a = s.mem.read a)

/-- 60_exceptions.md R167: a step returns Stop, which is no fault, exactly for the sentinel word. -/
def Obligations.OnlyTheSentinelStops : Prop :=
  ∀ (s : State) (w : Word), s.status = .ready → fetch Config.reference s = .ok w →
    ((hostStep s).2 = .stop ↔ opcodeOf w = 0b1110011#7 ∧ isSentinel Config.reference (funct3Of w) (immIOf w) = true)

/-- A rule of the whole machine (45_misc_system.md section 3, D7, log entry 4): a step that completes leaves the events as they
were, or the fetched word is an environment call and the one event added is x3, 0 or 1. -/
def Obligations.OnlyEnvironmentCallsReport : Prop :=
  ∀ (s t : State) (w : Word), fetch Config.reference s = .ok w → step s = .next t →
    t.reports = s.reports ∨
      (opcodeOf w = 0b1110011#7 ∧ isEcall Config.reference w = true ∧ (s.readReg 3#5).toNat ≤ 1 ∧
        t.reports = s.reports ++ [s.readReg 3#5])

/-- A step that completes leaves the latch Ready, as it found it (10_state.md section 3; 60_exceptions.md section 1). -/
def Obligations.CompletedStepsLeaveTheLatchReady : Prop :=
  ∀ s t : State, step s = .next t → s.status = .ready ∧ t.status = .ready

/-- 20_memory.md R55, which the spec derives: a word stored over the next instruction is what the next step fetches. -/
def Obligations.StoredInstructionIsFetchedNext : Prop :=
  ∀ (s : State) (rs2 rs1 : RegIdx) (imm : BitVec 12), s.mem.wf = true →
    effectiveAddress s rs1 imm = s.pc + 4#32 → inBounds Config.reference (s.pc + 4#32).toNat 4 = true →
    ∃ t, exec (.sw rs2 rs1 imm) s = .next t ∧ fetch Config.reference t = .ok (s.readReg rs2)

/-- The outputs of earlier steps, a different content of slot 0, a memory listed otherwise: nothing of it reaches a later step.
States that agree on what registers, pc, bytes and latch read step alike, to states that agree again, with the same return
value and the same events emitted (45_misc_system.md R160; 10_state.md R20; D7). That return value and events stand in
`signal` and `reports`, that x0 has a slot and that memory is a list are the model's choices, log entries 3, 4, 16, 21. -/
def Obligations.StepDependsOnlyOnTheHardware : Prop :=
  ∀ s s' : State, s.mem.wf = true → s'.mem.wf = true → SameHardware s s' →
    (∀ f, step s = .fault f → step s' = .fault f) ∧
    (∀ t, step s = .next t → ∃ t', step s' = .next t' ∧ SameHardware t t' ∧ t'.signal = t.signal ∧
      ∃ emitted, t.reports = s.reports ++ emitted ∧ t'.reports = s'.reports ++ emitted)

/-! ## The invariant, reset and the host -/

/-- Every step keeps the invariant: slot 0 is 0, memory is in canonical form, every listed byte lies in the window. The slot of
x0 is the model's own choice, log entry 16, and so is memory's canonical form, log entry 21; that nothing outside the window
exists is 20_memory.md R37, R51. -/
def Obligations.StepKeepsTheInvariant : Prop :=
  ∀ s t : State, s.Inv Config.reference → step s = .next t → t.Inv Config.reference

/-- The invariant holds after reset. Two of its clauses, the slot of x0 and memory's canonical form, are the model's own choices,
log entries 16, 21. -/
def Obligations.ResetMeetsTheInvariant : Prop := State.reset.Inv Config.reference

/-- Every operation of the host keeps the invariant, so that it holds in every state reached from reset by any of them. Two of
its clauses, the slot of x0 and memory's canonical form, are the model's own choices, log entries 16, 21. -/
def Obligations.HostOperationsKeepTheInvariant : Prop :=
  (∀ (op : HostCall) (s : State), s.Inv Config.reference → (hostCall op s).1.Inv Config.reference) ∧
  (∀ s : State, Reachable s → s.Inv Config.reference)

/-- 70_reset_and_hazards.md R178 and R179, with the spec's decisions D9 and D11: after reset every register, the pc and every
byte are 0 and the latch is Ready, whatever was before; the outputs start at Continue and no events (log entries 3, 4). -/
def Obligations.ResetZeroesEverything : Prop :=
  ∀ s : State, hostReset s = State.reset ∧ (∀ r, State.reset.readReg r = 0#32) ∧ State.reset.pc = 0#32 ∧
    (∀ a, State.reset.mem.read a = 0#8) ∧ State.reset.status = .ready ∧ State.reset.signal = .cont ∧
    State.reset.reports = []

/-- 70_reset_and_hazards.md R180, which the spec derives: a step right after reset, without setPC, raises OutOfBounds at address
0, in the reference configuration. -/
def Obligations.StepAfterResetIsOutOfBounds : Prop := step State.reset = .fault (.outOfBounds 0 4)

/-- 70_reset_and_hazards.md R181: getPC returns the pc, setPC stores its argument modulo 2^32, and neither touches anything
else. -/
def Obligations.SetPcStoresItsArgumentModulo : Prop :=
  ∀ (s : State) (addr : Nat),
    (getPC (setPC addr s)).toNat = addr % 2 ^ 32 ∧ getPC s = s.pc ∧ hostCall .getPC s = (s, .pcValue s.pc) ∧
    hostCall (.setPC addr) s = (setPC addr s, .done) ∧ setPC addr s = { s with pc := (setPC addr s).pc }

/-- 70_reset_and_hazards.md R182 and 20_memory.md R43, the spec's decisions D9 and D14 (log entry 19): the loader's write, of no
bytes too, stores its bytes in bounds and touches nothing else; out of bounds it writes nothing and sets the latch. That it
does so where a fault is latched already, replacing that one, is the model's own choice, log entry 18; the datum is the spec's
decision D8, log entry 14. -/
def Obligations.LoaderWriteStoresOrLatches : Prop :=
  ∀ (s : State) (addr : Nat) (bytes : List Byte), s.mem.wf = true →
    (inBounds Config.reference addr bytes.length = true →
      ∃ t, hostCall (.writeBytes addr bytes) s = (t, .done) ∧ (∀ r, t.readReg r = s.readReg r) ∧ t.pc = s.pc ∧
        t.status = s.status ∧
        ∀ a, t.mem.read a = if addr ≤ a ∧ a < addr + bytes.length then bytes.getD (a - addr) 0#8 else s.mem.read a) ∧
    (inBounds Config.reference addr bytes.length = false →
      hostCall (.writeBytes addr bytes) s =
        (s.latchFault (.outOfBounds addr bytes.length), .failed (.outOfBounds addr bytes.length)))

/-- 70_reset_and_hazards.md R186, and R187, which the spec derives: after the driver's boot of segments that lie in the window,
every register is 0, the pc is `ENTRY`, the latch is Ready; a byte that a segment covers and no later one does is that
segment's, so that a later segment overwrites an earlier one where they overlap; and a byte in no segment is 0. -/
def Obligations.BootedProgramStartsClean : Prop :=
  ∀ (s : State) (segments : List (Nat × List Byte)),
    (∀ seg ∈ segments, inBounds Config.reference seg.1 seg.2.length = true) →
    (∀ r, (boot segments s).readReg r = 0#32) ∧ (boot segments s).pc = 0x80000000#32 ∧
    (boot segments s).status = .ready ∧
    (∀ (earlier later : List (Nat × List Byte)) (addr : Nat) (bytes : List Byte),
      segments = earlier ++ (addr, bytes) :: later → ∀ j (h : j < bytes.length),
        (∀ seg ∈ later, addr + j < seg.1 ∨ seg.1 + seg.2.length ≤ addr + j) →
        (boot segments s).mem.read (addr + j) = bytes[j]) ∧
    (∀ a, (∀ seg ∈ segments, a < seg.1 ∨ seg.1 + seg.2.length ≤ a) → (boot segments s).mem.read a = 0#8)

/-- 70_reset_and_hazards.md R183 (content, the spec's decision D16): dump changes nothing and shows the 32 registers and the pc. -/
def Obligations.DumpShowsRegistersAndPc : Prop :=
  ∀ s : State, (hostCall .dump s).1 = s ∧ (dump s).2 = s.pc ∧
    (dump s).1.map Prod.snd = (List.range 32).map fun i => s.readReg (BitVec.ofNat 5 i)

/-- 00_scope.md R10: the reference configuration meets the constraints under which the spec's rules hold (D15). -/
def Obligations.ReferenceConfigurationIsValid : Prop := Config.reference.Valid
end

