-- ==== Sys2Proof/Laws/Alu.lean ====
section
/-! SUPPORT. What the ALU's and the BranchUnit's selectors compute, in the words the statements use. -/

namespace Sys2Proof.Machine

/-- A shift amount is the low five bits of the second operand (43_integer_alu.md R116). -/
theorem shift_amount (y : Word) : (y &&& 0x1F#32).toNat = y.toNat % 32 := by
  rw [BitVec.toNat_and]; exact Nat.and_two_pow_sub_one_eq_mod _ 5

/-- The eight values of a selector. -/
theorem selector_cases (f : BitVec 3) : f = 0 ∨ f = 1 ∨ f = 2 ∨ f = 3 ∨ f = 4 ∨ f = 5 ∨ f = 6 ∨ f = 7 := by
  revert f; decide

/-- The arithmetic right shift: the spec's fill of ones is the shift that keeps the sign (R120). -/
theorem arith_sra (x y : Word) : arith 0b101#3 x y true = x.sshiftRight (y.toNat % 32) := by
  simp only [arith, shift_amount]
  generalize y.toNat % 32 = k
  apply BitVec.eq_of_getLsbD_eq; intro i hi
  rw [BitVec.getLsbD_sshiftRight, BitVec.msb_eq_getLsbD_last]
  by_cases h31 : x.getLsbD 31 = true
  · simp only [BitVec.reduceToNat, Bool.true_and, h31, if_true, BitVec.getLsbD_or, BitVec.getLsbD_not,
      BitVec.getLsbD_ushiftRight, show (0xFFFFFFFF#32) = BitVec.allOnes 32 from rfl, BitVec.getLsbD_allOnes, hi, not_le.2 hi]
    by_cases h : k + i < 32 <;> simp [h]
  · simp only [Bool.not_eq_true] at h31
    simp only [BitVec.reduceToNat, h31, Bool.and_false, not_le.2 hi]
    by_cases h : k + i < 32 <;> simp [h]
    exact BitVec.getLsbD_of_ge _ _ (by omega)

/-- Every selector of the ALU (R115 to R122). -/
theorem arith_eq_aluResult (f : BitVec 3) (x y : Word) (alternate : Bool) :
    arith f x y alternate = aluResult f alternate x y := by
  have amount : y.toNat &&& 31 = y.toNat % 32 := Nat.and_two_pow_sub_one_eq_mod _ 5
  rcases selector_cases f with rfl | rfl | rfl | rfl | rfl | rfl | rfl | rfl
  case inr.inr.inr.inr.inr.inl =>
    cases alternate
    · simp [arith, aluResult, amount]
    · exact arith_sra x y
  all_goals simp [arith, aluResult, amount, signedLess, unsignedLess, boolWord]

/-- The six supported selectors of the BranchUnit (42_control_transfer.md R100). -/
theorem cond_supported {f : BitVec 3} (h2 : f ≠ 0b010#3) (h3 : f ≠ 0b011#3) (x y : Word) :
    ∃ taken, cond f x y = .ok taken ∧ (taken = true ↔ branchTaken f x y) := by
  rcases selector_cases f with rfl | rfl | rfl | rfl | rfl | rfl | rfl | rfl <;>
    first
      | exact absurd rfl h2
      | exact absurd rfl h3
      | exact ⟨_, rfl, by simp [branchTaken, signedLess, unsignedLess]⟩

/-- The two others (R101). -/
theorem cond_unsupported {f : BitVec 3} (h : f = 0b010#3 ∨ f = 0b011#3) (x y : Word) :
    cond f x y = .error (.invalidOperation f) := by
  rcases h with rfl | rfl <;> rfl

end Sys2Proof.Machine
end

