-- ==== Sys2Proof/Laws/Arms.lean ====
section
/-! SUPPORT. What each instruction is over the shared stages, one equation per constructor. -/

namespace Sys2Proof.Machine

section
variable (s : State)

@[simp] theorem exec_lui (rd : RegIdx) (imm20 : BitVec 20) :
    exec (.lui rd imm20) s = retire (.result rd (immUWord imm20)) s := rfl
@[simp] theorem exec_auipc (rd : RegIdx) (imm20 : BitVec 20) :
    exec (.auipc rd imm20) s = retire (.result rd (upperTarget s imm20)) s := rfl
@[simp] theorem exec_jal (rd : RegIdx) (offset : BitVec 21) :
    exec (.jal rd offset) s = retire (.link rd (jalTarget s offset)) s := rfl
@[simp] theorem exec_jalr (rd rs1 : RegIdx) (imm : BitVec 12) (funct3 : BitVec 3) :
    exec (.jalr rd rs1 imm funct3) s = retire (.link rd (jalrTarget s rs1 imm)) s := rfl
@[simp] theorem exec_beq (rs1 rs2 : RegIdx) (offset : BitVec 13) :
    exec (.beq rs1 rs2 offset) s = branchStage 0b000#3 rs1 rs2 offset s := rfl
@[simp] theorem exec_bne (rs1 rs2 : RegIdx) (offset : BitVec 13) :
    exec (.bne rs1 rs2 offset) s = branchStage 0b001#3 rs1 rs2 offset s := rfl
@[simp] theorem exec_blt (rs1 rs2 : RegIdx) (offset : BitVec 13) :
    exec (.blt rs1 rs2 offset) s = branchStage 0b100#3 rs1 rs2 offset s := rfl
@[simp] theorem exec_bge (rs1 rs2 : RegIdx) (offset : BitVec 13) :
    exec (.bge rs1 rs2 offset) s = branchStage 0b101#3 rs1 rs2 offset s := rfl
@[simp] theorem exec_bltu (rs1 rs2 : RegIdx) (offset : BitVec 13) :
    exec (.bltu rs1 rs2 offset) s = branchStage 0b110#3 rs1 rs2 offset s := rfl
@[simp] theorem exec_bgeu (rs1 rs2 : RegIdx) (offset : BitVec 13) :
    exec (.bgeu rs1 rs2 offset) s = branchStage 0b111#3 rs1 rs2 offset s := rfl
@[simp] theorem exec_branchInvalid010 (rs1 rs2 : RegIdx) (offset : BitVec 13) :
    exec (.branchInvalid010 rs1 rs2 offset) s = branchStage 0b010#3 rs1 rs2 offset s := rfl
@[simp] theorem exec_branchInvalid011 (rs1 rs2 : RegIdx) (offset : BitVec 13) :
    exec (.branchInvalid011 rs1 rs2 offset) s = branchStage 0b011#3 rs1 rs2 offset s := rfl
@[simp] theorem exec_sub (rd rs1 rs2 : RegIdx) :
    exec (.sub rd rs1 rs2) s = opStage 0b000#3 true rd rs1 rs2 s := rfl
@[simp] theorem exec_add (rd rs1 rs2 : RegIdx) (funct7 : BitVec 7) :
    exec (.add rd rs1 rs2 funct7) s = opStage 0b000#3 false rd rs1 rs2 s := rfl
@[simp] theorem exec_sll (rd rs1 rs2 : RegIdx) (funct7 : BitVec 7) :
    exec (.sll rd rs1 rs2 funct7) s = opStage 0b001#3 (altOp funct7) rd rs1 rs2 s := rfl
@[simp] theorem exec_slt (rd rs1 rs2 : RegIdx) (funct7 : BitVec 7) :
    exec (.slt rd rs1 rs2 funct7) s = opStage 0b010#3 (altOp funct7) rd rs1 rs2 s := rfl
@[simp] theorem exec_sltu (rd rs1 rs2 : RegIdx) (funct7 : BitVec 7) :
    exec (.sltu rd rs1 rs2 funct7) s = opStage 0b011#3 (altOp funct7) rd rs1 rs2 s := rfl
@[simp] theorem exec_xor (rd rs1 rs2 : RegIdx) (funct7 : BitVec 7) :
    exec (.xor rd rs1 rs2 funct7) s = opStage 0b100#3 (altOp funct7) rd rs1 rs2 s := rfl
@[simp] theorem exec_sra (rd rs1 rs2 : RegIdx) :
    exec (.sra rd rs1 rs2) s = opStage 0b101#3 true rd rs1 rs2 s := rfl
@[simp] theorem exec_srl (rd rs1 rs2 : RegIdx) (funct7 : BitVec 7) :
    exec (.srl rd rs1 rs2 funct7) s = opStage 0b101#3 false rd rs1 rs2 s := rfl
@[simp] theorem exec_or (rd rs1 rs2 : RegIdx) (funct7 : BitVec 7) :
    exec (.or rd rs1 rs2 funct7) s = opStage 0b110#3 (altOp funct7) rd rs1 rs2 s := rfl
@[simp] theorem exec_and (rd rs1 rs2 : RegIdx) (funct7 : BitVec 7) :
    exec (.and rd rs1 rs2 funct7) s = opStage 0b111#3 (altOp funct7) rd rs1 rs2 s := rfl
@[simp] theorem exec_addi (rd rs1 : RegIdx) (imm : BitVec 12) :
    exec (.addi rd rs1 imm) s = opImmStage 0b000#3 (altOpImm 0b000#3 (imm.extractLsb' 5 7)) rd rs1 (imm12Word imm) s := rfl
@[simp] theorem exec_slti (rd rs1 : RegIdx) (imm : BitVec 12) :
    exec (.slti rd rs1 imm) s = opImmStage 0b010#3 (altOpImm 0b010#3 (imm.extractLsb' 5 7)) rd rs1 (imm12Word imm) s := rfl
@[simp] theorem exec_sltiu (rd rs1 : RegIdx) (imm : BitVec 12) :
    exec (.sltiu rd rs1 imm) s = opImmStage 0b011#3 (altOpImm 0b011#3 (imm.extractLsb' 5 7)) rd rs1 (imm12Word imm) s := rfl
@[simp] theorem exec_xori (rd rs1 : RegIdx) (imm : BitVec 12) :
    exec (.xori rd rs1 imm) s = opImmStage 0b100#3 (altOpImm 0b100#3 (imm.extractLsb' 5 7)) rd rs1 (imm12Word imm) s := rfl
@[simp] theorem exec_ori (rd rs1 : RegIdx) (imm : BitVec 12) :
    exec (.ori rd rs1 imm) s = opImmStage 0b110#3 (altOpImm 0b110#3 (imm.extractLsb' 5 7)) rd rs1 (imm12Word imm) s := rfl
@[simp] theorem exec_andi (rd rs1 : RegIdx) (imm : BitVec 12) :
    exec (.andi rd rs1 imm) s = opImmStage 0b111#3 (altOpImm 0b111#3 (imm.extractLsb' 5 7)) rd rs1 (imm12Word imm) s := rfl
@[simp] theorem exec_slli (rd rs1 : RegIdx) (shamt : BitVec 5) (funct7 : BitVec 7) :
    exec (.slli rd rs1 shamt funct7) s = opImmStage 0b001#3 (altOpImm 0b001#3 funct7) rd rs1 (shiftImm funct7 shamt) s := rfl
@[simp] theorem exec_srai (rd rs1 : RegIdx) (shamt : BitVec 5) :
    exec (.srai rd rs1 shamt) s = opImmStage 0b101#3 true rd rs1 (shiftImm altFunct7 shamt) s := rfl
@[simp] theorem exec_srli (rd rs1 : RegIdx) (shamt : BitVec 5) (funct7 : BitVec 7) :
    exec (.srli rd rs1 shamt funct7) s = opImmStage 0b101#3 false rd rs1 (shiftImm funct7 shamt) s := rfl
@[simp] theorem exec_lb (rd rs1 : RegIdx) (imm : BitVec 12) :
    exec (.lb rd rs1 imm) s = loadStage Config.reference 0b000#3 rd rs1 imm s := rfl
@[simp] theorem exec_lh (rd rs1 : RegIdx) (imm : BitVec 12) :
    exec (.lh rd rs1 imm) s = loadStage Config.reference 0b001#3 rd rs1 imm s := rfl
@[simp] theorem exec_lw (rd rs1 : RegIdx) (imm : BitVec 12) :
    exec (.lw rd rs1 imm) s = loadStage Config.reference 0b010#3 rd rs1 imm s := rfl
@[simp] theorem exec_lbu (rd rs1 : RegIdx) (imm : BitVec 12) :
    exec (.lbu rd rs1 imm) s = loadStage Config.reference 0b100#3 rd rs1 imm s := rfl
@[simp] theorem exec_lhu (rd rs1 : RegIdx) (imm : BitVec 12) :
    exec (.lhu rd rs1 imm) s = loadStage Config.reference 0b101#3 rd rs1 imm s := rfl
@[simp] theorem exec_loadInvalid011 (rd rs1 : RegIdx) (imm : BitVec 12) :
    exec (.loadInvalid011 rd rs1 imm) s = loadStage Config.reference 0b011#3 rd rs1 imm s := rfl
@[simp] theorem exec_loadInvalid110 (rd rs1 : RegIdx) (imm : BitVec 12) :
    exec (.loadInvalid110 rd rs1 imm) s = loadStage Config.reference 0b110#3 rd rs1 imm s := rfl
@[simp] theorem exec_loadInvalid111 (rd rs1 : RegIdx) (imm : BitVec 12) :
    exec (.loadInvalid111 rd rs1 imm) s = loadStage Config.reference 0b111#3 rd rs1 imm s := rfl
@[simp] theorem exec_sb (rs2 rs1 : RegIdx) (imm : BitVec 12) :
    exec (.sb rs2 rs1 imm) s = storeStage Config.reference 0b000#3 rs2 rs1 imm s := rfl
@[simp] theorem exec_sh (rs2 rs1 : RegIdx) (imm : BitVec 12) :
    exec (.sh rs2 rs1 imm) s = storeStage Config.reference 0b001#3 rs2 rs1 imm s := rfl
@[simp] theorem exec_sw (rs2 rs1 : RegIdx) (imm : BitVec 12) :
    exec (.sw rs2 rs1 imm) s = storeStage Config.reference 0b010#3 rs2 rs1 imm s := rfl
@[simp] theorem exec_storeInvalid011 (rs2 rs1 : RegIdx) (imm : BitVec 12) :
    exec (.storeInvalid011 rs2 rs1 imm) s = storeStage Config.reference 0b011#3 rs2 rs1 imm s := rfl
@[simp] theorem exec_storeInvalid100 (rs2 rs1 : RegIdx) (imm : BitVec 12) :
    exec (.storeInvalid100 rs2 rs1 imm) s = storeStage Config.reference 0b100#3 rs2 rs1 imm s := rfl
@[simp] theorem exec_storeInvalid101 (rs2 rs1 : RegIdx) (imm : BitVec 12) :
    exec (.storeInvalid101 rs2 rs1 imm) s = storeStage Config.reference 0b101#3 rs2 rs1 imm s := rfl
@[simp] theorem exec_storeInvalid110 (rs2 rs1 : RegIdx) (imm : BitVec 12) :
    exec (.storeInvalid110 rs2 rs1 imm) s = storeStage Config.reference 0b110#3 rs2 rs1 imm s := rfl
@[simp] theorem exec_storeInvalid111 (rs2 rs1 : RegIdx) (imm : BitVec 12) :
    exec (.storeInvalid111 rs2 rs1 imm) s = storeStage Config.reference 0b111#3 rs2 rs1 imm s := rfl
@[simp] theorem exec_fence (rd rs1 : RegIdx) (imm : BitVec 12) (funct3 : BitVec 3) :
    exec (.fence rd rs1 imm funct3) s = retire .none s := rfl
@[simp] theorem exec_sentinel (rd rs1 : RegIdx) :
    exec (.sentinel rd rs1) s = stopStep s := rfl
@[simp] theorem exec_ecall (rd rs1 : RegIdx) (imm : BitVec 12) :
    exec (.ecall rd rs1 imm) s = ecallStage Config.reference s := rfl
@[simp] theorem exec_systemNop (rd rs1 : RegIdx) (imm : BitVec 12) (funct3 : BitVec 3) :
    exec (.systemNop rd rs1 imm funct3) s = retire .none s := rfl
@[simp] theorem exec_decodeFailure (word : Word) :
    exec (.decodeFailure word) s = raise (.decodeFailure word) := rfl
end

end Sys2Proof.Machine
end

