-- ==== Sys2Proof/Laws/Memory.lean ====
section
/-! SUPPORT. The memory window: read after write, the canonical form and the window are kept by every operation, and one
lemma for each accessor. -/

namespace Sys2Proof.Machine

/-! ## One byte -/

/-- An address below every listed one reads 0. -/
theorem Memory.read_of_below {m : Memory} {a : Nat} (h : ∀ cell ∈ m, a < cell.1) : m.read a = 0#8 := by
  induction m with
  | nil => rfl
  | cons cell rest ih =>
    obtain ⟨k, v⟩ := cell
    have hk : a < k := h (k, v) List.mem_cons_self
    simp only [Memory.read, Nat.ne_of_lt hk, if_false]
    exact ih fun c hc => h c (List.mem_cons_of_mem _ hc)

/-- The parts of the canonical form. -/
theorem Memory.wf_cons {k : Nat} {v : Byte} {rest : Memory} :
    Memory.wf ((k, v) :: rest) = true ↔ v ≠ 0#8 ∧ (∀ cell ∈ rest, k < cell.1) ∧ rest.wf = true := by
  simp [Memory.wf, and_assoc]

/-- Read after write: the byte written, and every other byte as before. -/
theorem Memory.read_write {m : Memory} (h : m.wf = true) (a a' : Nat) (b : Byte) :
    (m.write a b).read a' = if a' = a then b else m.read a' := by
  induction m with
  | nil =>
    by_cases hb : b = 0#8
    · simp [Memory.write, Memory.read, hb]
    · simp [Memory.write, Memory.read, hb]
  | cons cell rest ih =>
    obtain ⟨k, v⟩ := cell
    obtain ⟨_, hgt, hwf⟩ := Memory.wf_cons.1 h
    have below : ∀ x, x ≤ k → Memory.read rest x = 0#8 := fun x hx =>
      Memory.read_of_below fun c hc => lt_of_le_of_lt hx (hgt c hc)
    rcases Nat.lt_trichotomy a k with hlt | rfl | hlt
    · by_cases hb : b = 0#8
      · by_cases ha : a' = a
        · subst ha; simp [Memory.write, Memory.read, hlt, hlt.ne, hb, below a' hlt.le]
        · simp [Memory.write, hlt, hb, ha]
      · simp [Memory.write, Memory.read, hlt, hb]
    · by_cases ha : a' = a
      · subst ha
        by_cases hb : b = 0#8 <;> simp [Memory.write, Memory.read, hb, below a' le_rfl]
      · by_cases hb : b = 0#8 <;> simp [Memory.write, Memory.read, hb, ha]
    · by_cases hk : a' = k
      · subst hk; simp [Memory.write, Memory.read, hlt.not_gt, hlt.ne, hlt.ne']
      · simp [Memory.write, Memory.read, hlt.not_gt, hlt.ne', hk, ih hwf]

/-- What a write lists: the address written, or an address listed before. -/
theorem Memory.mem_write {m : Memory} {a : Nat} {b : Byte} {cell : Host.Cell} (h : cell ∈ m.write a b) :
    cell = (a, b) ∨ cell ∈ m := by
  induction m with
  | nil =>
    simp only [Memory.write] at h
    split at h <;> simp_all
  | cons head rest ih =>
    obtain ⟨k, v⟩ := head
    simp only [Memory.write] at h
    split_ifs at h
    · exact .inr h
    · simpa using h
    · exact .inr (List.mem_cons_of_mem _ h)
    · rcases List.mem_cons.1 h with h | h
      · exact .inl h
      · exact .inr (List.mem_cons_of_mem _ h)
    · rcases List.mem_cons.1 h with h | h
      · exact .inr (h ▸ List.mem_cons_self)
      · exact (ih h).imp_right (List.mem_cons_of_mem _)

/-- A write keeps the canonical form. -/
theorem Memory.write_wf {m : Memory} (h : m.wf = true) (a : Nat) (b : Byte) : (m.write a b).wf = true := by
  induction m with
  | nil =>
    simp only [Memory.write]
    split
    · rfl
    · simp_all [Memory.wf]
  | cons cell rest ih =>
    obtain ⟨k, v⟩ := cell
    obtain ⟨hv, hgt, hwf⟩ := Memory.wf_cons.1 h
    simp only [Memory.write]
    split_ifs with h1 h2 h3 h4
    · exact h
    · refine Memory.wf_cons.2 ⟨h2, fun c hc => ?_, h⟩
      rcases List.mem_cons.1 hc with rfl | hc
      · exact h1
      · exact lt_trans h1 (hgt c hc)
    · exact hwf
    · exact Memory.wf_cons.2 ⟨h4, fun c hc => h3 ▸ hgt c hc, hwf⟩
    · refine Memory.wf_cons.2 ⟨hv, fun c hc => ?_, ih hwf⟩
      rcases Memory.mem_write hc with rfl | hc
      · exact lt_of_le_of_ne (not_lt.1 h1) (Ne.symm h3)
      · exact hgt c hc

/-- A write inside the window keeps every listed byte in the window. -/
theorem Memory.write_within {c : Config} {m : Memory} (h : m.within c = true) {a : Nat} (b : Byte)
    (ha : c.memBase ≤ a ∧ a < c.memBase + c.memSize) : (m.write a b).within c = true := by
  simp only [Memory.within, List.all_eq_true, decide_eq_true_eq] at h ⊢
  intro cell hc
  rcases Memory.mem_write hc with rfl | hc
  · exact ha
  · exact h cell hc

/-! ## Consecutive bytes (20_memory.md R40) -/

/-- Read after a write of several bytes: the bytes written at their addresses, every other byte as before. -/
theorem Memory.read_writeAll {m : Memory} (h : m.wf = true) (a : Nat) (bytes : List Byte) (a' : Nat) :
    (m.writeAll a bytes).read a' =
      if a ≤ a' ∧ a' < a + bytes.length then bytes.getD (a' - a) 0#8 else m.read a' := by
  induction bytes generalizing m a with
  | nil => simp [Memory.writeAll, show ¬(a ≤ a' ∧ a' < a) by omega]
  | cons b bs ih =>
    rw [Memory.writeAll, ih (Memory.write_wf h a b), Memory.read_write h]
    rcases Nat.lt_trichotomy a' a with hlt | rfl | hgt
    · rw [if_neg (by omega), if_neg (by omega), if_neg (by simp only [List.length_cons]; omega)]
    · rw [if_neg (by omega), if_pos rfl, if_pos (by simp only [List.length_cons]; omega)]
      simp
    · by_cases hin : a' < a + 1 + bs.length
      · rw [if_pos ⟨by omega, hin⟩, if_pos (by simp only [List.length_cons]; omega)]
        obtain ⟨d, rfl⟩ : ∃ d, a' = a + (d + 1) := ⟨a' - a - 1, by omega⟩
        simp [show a + (d + 1) - (a + 1) = d by omega]
      · rw [if_neg (by omega), if_neg (by omega), if_neg (by simp only [List.length_cons]; omega)]

/-- Writing bytes keeps the canonical form. -/
theorem Memory.writeAll_wf {m : Memory} (h : m.wf = true) (a : Nat) (bytes : List Byte) :
    (m.writeAll a bytes).wf = true := by
  induction bytes generalizing m a with
  | nil => exact h
  | cons b bs ih => exact ih (Memory.write_wf h a b) (a + 1)

/-- Writing bytes inside the window keeps every listed byte in the window. -/
theorem Memory.writeAll_within {c : Config} {m : Memory} (h : m.within c = true) {a : Nat} {bytes : List Byte}
    (lo : c.memBase ≤ a) (hi : a + bytes.length ≤ c.memBase + c.memSize) : (m.writeAll a bytes).within c = true := by
  induction bytes generalizing m a with
  | nil => exact h
  | cons b bs ih =>
    simp only [List.length_cons] at hi
    exact ih (Memory.write_within h b ⟨lo, by omega⟩) (by omega) (by omega)

/-! ## Bounds (20_memory.md R37) -/

theorem inBounds_iff {c : Config} {a n : Nat} :
    inBounds c a n = true ↔ c.memBase ≤ a ∧ a + n ≤ c.memBase + c.memSize := by
  simp only [inBounds, decide_eq_true_eq]
  omega

theorem inBounds_false_iff {c : Config} {a n : Nat} :
    inBounds c a n = false ↔ a < c.memBase ∨ c.memBase + c.memSize < a + n := by
  rw [← Bool.not_eq_true, inBounds_iff]
  omega

/-! ## The accessors -/

/-- Everything `readWord` can answer (R39). -/
theorem Memory.readWord_cases (c : Config) (m : Memory) (a : Word) :
    (inBounds c a.toNat 4 = true ∧ m.readWord c a = .ok (m.word a.toNat)) ∨
      (inBounds c a.toNat 4 = false ∧ m.readWord c a = .error (.outOfBounds a.toNat 4)) := by
  unfold Memory.readWord
  cases h : inBounds c a.toNat 4 <;> simp

/-- Everything `MemRead` can answer (R42). -/
theorem Memory.memRead_cases (c : Config) (m : Memory) (a : Word) (w : Width) :
    (inBounds c a.toNat 4 = true ∧ m.memRead c a w = .ok (m.word a.toNat &&& w.mask)) ∨
      (inBounds c a.toNat 4 = false ∧ m.memRead c a w = .error (.outOfBounds a.toNat 4)) := by
  unfold Memory.memRead
  rcases Memory.readWord_cases c m a with ⟨h, e⟩ | ⟨h, e⟩ <;> simp [h, e]

/-- Everything `writeBytes` can answer (R40). -/
theorem Memory.writeBytes_cases (c : Config) (m : Memory) (a : Nat) (bytes : List Byte) :
    (inBounds c a bytes.length = true ∧ m.writeBytes c a bytes = .ok (m.writeAll a bytes)) ∨
      (inBounds c a bytes.length = false ∧ m.writeBytes c a bytes = .error (.outOfBounds a bytes.length)) := by
  unfold Memory.writeBytes
  cases h : inBounds c a bytes.length <;> simp

/-- A write that succeeds keeps the canonical form. -/
theorem Memory.writeBytes_wf {c : Config} {m m' : Memory} {a : Nat} {bytes : List Byte} (h : m.wf = true)
    (hw : m.writeBytes c a bytes = .ok m') : m'.wf = true := by
  rcases Memory.writeBytes_cases c m a bytes with ⟨_, e⟩ | ⟨_, e⟩ <;> rw [e] at hw
  · cases hw; exact Memory.writeAll_wf h a bytes
  · cases hw

/-- A write that succeeds keeps every listed byte in the window. -/
theorem Memory.writeBytes_within {c : Config} {m m' : Memory} {a : Nat} {bytes : List Byte} (h : m.within c = true)
    (hw : m.writeBytes c a bytes = .ok m') : m'.within c = true := by
  rcases Memory.writeBytes_cases c m a bytes with ⟨hb, e⟩ | ⟨_, e⟩ <;> rw [e] at hw
  · cases hw
    obtain ⟨lo, hi⟩ := inBounds_iff.1 hb
    exact Memory.writeAll_within h lo hi
  · cases hw

@[simp] theorem leBytes_length (n : Nat) (v : Word) : (leBytes n v).length = n := by simp [leBytes]

/-- The bytes of a word, by place (R41). -/
theorem leBytes_getD (n j : Nat) (v : Word) (h : j < n) : (leBytes n v).getD j 0#8 = v.extractLsb' (8 * j) 8 := by
  simp [leBytes, List.getD_eq_getElem?_getD, h]

/-- Everything `MemWrite` can answer (R41). -/
theorem Memory.memWrite_cases (c : Config) (m : Memory) (a : Word) (w : Width) (v : Word) :
    (inBounds c a.toNat w.bytes = true ∧ m.memWrite c a w v = .ok (m.writeAll a.toNat (leBytes w.bytes v))) ∨
      (inBounds c a.toNat w.bytes = false ∧ m.memWrite c a w v = .error (.outOfBounds a.toNat w.bytes)) := by
  have h := Memory.writeBytes_cases c m a.toNat (leBytes w.bytes v)
  rwa [leBytes_length] at h

/-- Every byte after a stored value: its own bytes at their places, every other byte as before. -/
theorem Memory.read_writeAll_leBytes {m : Memory} (h : m.wf = true) (a n : Nat) (v : Word) (a' : Nat) :
    (m.writeAll a (leBytes n v)).read a' =
      if a ≤ a' ∧ a' < a + n then v.extractLsb' (8 * (a' - a)) 8 else m.read a' := by
  rw [Memory.read_writeAll h, leBytes_length]
  split_ifs with hin
  · exact leBytes_getD n (a' - a) v (by omega)
  · rfl

/-- A word's bytes put back together in order are the word (20_memory.md R39, R41). -/
theorem leWord_bytes (v : Word) :
    leWord (v.extractLsb' 0 8) (v.extractLsb' 8 8) (v.extractLsb' 16 8) (v.extractLsb' 24 8) = v := by
  apply BitVec.eq_of_getLsbD_eq
  intro i hi
  simp only [leWord, BitVec.getLsbD_append, BitVec.getLsbD_extractLsb']
  interval_cases i <;> simp

end Sys2Proof.Machine
end

