-- ==== Sys2Proof/Laws/State.lean ====
section
/-! SUPPORT. Each update of the state, field by field, and the register file's read after write. -/

namespace Sys2Proof.Machine

section
variable (s : State) (i j : RegIdx) (v t : Word) (f : Fault) (m : Memory)

@[simp] theorem State.setPc_pc : (s.setPc t).pc = t := rfl
@[simp] theorem State.setPc_regs : (s.setPc t).regs = s.regs := rfl
@[simp] theorem State.setPc_mem : (s.setPc t).mem = s.mem := rfl
@[simp] theorem State.setPc_status : (s.setPc t).status = s.status := rfl
@[simp] theorem State.setPc_signal : (s.setPc t).signal = s.signal := rfl
@[simp] theorem State.setPc_reports : (s.setPc t).reports = s.reports := rfl
@[simp] theorem State.setPc_readReg : (s.setPc t).readReg i = s.readReg i := rfl

@[simp] theorem State.setMem_regs : (s.setMem m).regs = s.regs := rfl
@[simp] theorem State.setMem_pc : (s.setMem m).pc = s.pc := rfl
@[simp] theorem State.setMem_mem : (s.setMem m).mem = m := rfl
@[simp] theorem State.setMem_status : (s.setMem m).status = s.status := rfl
@[simp] theorem State.setMem_signal : (s.setMem m).signal = s.signal := rfl
@[simp] theorem State.setMem_reports : (s.setMem m).reports = s.reports := rfl
@[simp] theorem State.setMem_readReg : (s.setMem m).readReg i = s.readReg i := rfl
@[simp] theorem State.setMem_nextPc : (s.setMem m).nextPc = s.nextPc := rfl

@[simp] theorem State.latchFault_regs : (s.latchFault f).regs = s.regs := rfl
@[simp] theorem State.latchFault_pc : (s.latchFault f).pc = s.pc := rfl
@[simp] theorem State.latchFault_mem : (s.latchFault f).mem = s.mem := rfl
@[simp] theorem State.latchFault_status : (s.latchFault f).status = .faulted f := rfl
@[simp] theorem State.latchFault_signal : (s.latchFault f).signal = s.signal := rfl
@[simp] theorem State.latchFault_reports : (s.latchFault f).reports = s.reports := rfl
@[simp] theorem State.latchFault_readReg : (s.latchFault f).readReg i = s.readReg i := rfl

@[simp] theorem State.emitReport_regs : (s.emitReport v).regs = s.regs := rfl
@[simp] theorem State.emitReport_pc : (s.emitReport v).pc = s.pc := rfl
@[simp] theorem State.emitReport_mem : (s.emitReport v).mem = s.mem := rfl
@[simp] theorem State.emitReport_status : (s.emitReport v).status = s.status := rfl
@[simp] theorem State.emitReport_signal : (s.emitReport v).signal = s.signal := rfl
@[simp] theorem State.emitReport_reports : (s.emitReport v).reports = s.reports ++ [v] := rfl
@[simp] theorem State.emitReport_readReg : (s.emitReport v).readReg i = s.readReg i := rfl
@[simp] theorem State.emitReport_nextPc : (s.emitReport v).nextPc = s.nextPc := rfl

@[simp] theorem State.writeReg_pc : (s.writeReg i v).pc = s.pc := by unfold State.writeReg; split <;> rfl
@[simp] theorem State.writeReg_mem : (s.writeReg i v).mem = s.mem := by unfold State.writeReg; split <;> rfl
@[simp] theorem State.writeReg_status : (s.writeReg i v).status = s.status := by unfold State.writeReg; split <;> rfl
@[simp] theorem State.writeReg_signal : (s.writeReg i v).signal = s.signal := by unfold State.writeReg; split <;> rfl
@[simp] theorem State.writeReg_reports : (s.writeReg i v).reports = s.reports := by unfold State.writeReg; split <;> rfl

/-- x0 reads 0 whatever its slot holds (R20). -/
@[simp] theorem State.readReg_zero : s.readReg 0#5 = 0#32 := rfl

/-- A write to x0 is dropped (R21). -/
@[simp] theorem State.writeReg_zero : s.writeReg 0#5 v = s := rfl

theorem State.readReg_of_ne (h : i ≠ 0#5) : s.readReg i = s.regs[i.toNat]'i.isLt := if_neg h

theorem State.writeReg_of_ne (h : i ≠ 0#5) : s.writeReg i v = { s with regs := s.regs.set i.toNat v i.isLt } := if_neg h

/-- Every register after a write (R20, R21). -/
theorem State.readReg_writeReg :
    (s.writeReg i v).readReg j = if j = 0#5 then 0#32 else if j = i then v else s.readReg j := by
  by_cases hj : j = 0#5
  · simp [hj]
  by_cases hi : i = 0#5
  · have hji : j ≠ i := fun h => hj (h.trans hi)
    simp [hi, hj]
  · rw [State.writeReg_of_ne s i v hi, State.readReg_of_ne _ j hj, State.readReg_of_ne s j hj]
    by_cases hji : j = i
    · subst hji; simp [hj]
    · have hn : i.toNat ≠ j.toNat := fun h => hji (BitVec.eq_of_toNat_eq h.symm)
      simp [hj, hji, hn]

/-- A write leaves slot 0 alone, so that it stays 0. -/
@[simp] theorem State.writeReg_slot_zero : (s.writeReg i v).regs[0] = s.regs[0] := by
  unfold State.writeReg
  split
  · rfl
  · have hi : i.toNat ≠ 0 := fun h => ‹¬i = 0#5› (BitVec.eq_of_toNat_eq (by simpa using h))
    simp [hi]
end

/-! ## Writeback (40_execution_cycle.md R92) -/

section
variable (s : State) (wb : Writeback) (rd r : RegIdx) (v t : Word)

@[simp] theorem State.writeback_mem : (s.writeback wb).mem = s.mem := by
  cases wb <;> simp [State.writeback]
@[simp] theorem State.writeback_status : (s.writeback wb).status = s.status := by
  cases wb <;> simp [State.writeback]
@[simp] theorem State.writeback_signal : (s.writeback wb).signal = .cont := by
  cases wb <;> rfl
@[simp] theorem State.writeback_reports : (s.writeback wb).reports = s.reports := by
  cases wb <;> simp [State.writeback]
@[simp] theorem State.writeback_slot_zero : (s.writeback wb).regs[0] = s.regs[0] := by
  cases wb <;> simp [State.writeback]

@[simp] theorem State.writeback_none_pc : (s.writeback .none).pc = s.nextPc := rfl
@[simp] theorem State.writeback_result_pc : (s.writeback (.result rd v)).pc = s.nextPc := rfl
@[simp] theorem State.writeback_jump_pc : (s.writeback (.jump t)).pc = t := rfl
@[simp] theorem State.writeback_link_pc : (s.writeback (.link rd t)).pc = t := rfl

@[simp] theorem State.writeback_none_readReg : (s.writeback .none).readReg r = s.readReg r := rfl
@[simp] theorem State.writeback_jump_readReg : (s.writeback (.jump t)).readReg r = s.readReg r := rfl
@[simp] theorem State.writeback_result_readReg :
    (s.writeback (.result rd v)).readReg r = if r = 0#5 then 0#32 else if r = rd then v else s.readReg r :=
  s.readReg_writeReg rd r v
@[simp] theorem State.writeback_link_readReg :
    (s.writeback (.link rd t)).readReg r = if r = 0#5 then 0#32 else if r = rd then s.nextPc else s.readReg r :=
  s.readReg_writeReg rd r s.nextPc
end

end Sys2Proof.Machine
end

