-- ==== Sys2Proof/Laws/Exec.lean ====
section
/-! SUPPORT. Everything each shared stage can answer, and everything an instruction and a step can answer. -/

namespace Sys2Proof.Machine

/-! ## The stages -/

/-- Everything the BRANCH stage can answer. -/
theorem branchStage_cases (selector : BitVec 3) (rs1 rs2 : RegIdx) (offset : BitVec 13) (s : State) :
    (cond selector (s.readReg rs1) (s.readReg rs2) = .ok true ∧
        branchStage selector rs1 rs2 offset s = .next (s.writeback (.jump (branchTarget s offset)))) ∨
      (cond selector (s.readReg rs1) (s.readReg rs2) = .ok false ∧
        branchStage selector rs1 rs2 offset s = .next (s.writeback .none)) ∨
      (∃ f, cond selector (s.readReg rs1) (s.readReg rs2) = .error f ∧
        branchStage selector rs1 rs2 offset s = .fault f) := by
  unfold branchStage
  rcases h : cond selector (s.readReg rs1) (s.readReg rs2) with f | (_ | _)
  · exact .inr (.inr ⟨f, rfl, rfl⟩)
  · exact .inr (.inl ⟨rfl, rfl⟩)
  · exact .inl ⟨rfl, rfl⟩

/-- Everything the LOAD stage can answer for a recognised width: the extended value, or OutOfBounds. -/
theorem loadStage_cases (c : Config) {funct3 : BitVec 3} {w : Width} {signed : Bool}
    (hw : loadWidth funct3 = some (w, signed)) (rd rs1 : RegIdx) (imm : BitVec 12) (s : State) :
    (inBounds c (effectiveAddress s rs1 imm).toNat 4 = true ∧
        loadStage c funct3 rd rs1 imm s =
          .next (s.writeback (.result rd (extendLoad signed w
            (s.mem.word (effectiveAddress s rs1 imm).toNat &&& w.mask))))) ∨
      (inBounds c (effectiveAddress s rs1 imm).toNat 4 = false ∧
        loadStage c funct3 rd rs1 imm s = .fault (.outOfBounds (effectiveAddress s rs1 imm).toNat 4)) := by
  unfold loadStage
  rcases Memory.memRead_cases c s.mem (effectiveAddress s rs1 imm) w with ⟨h, e⟩ | ⟨h, e⟩
  · exact .inl ⟨h, by simp [hw, e, retire]⟩
  · exact .inr ⟨h, by simp [hw, e, raise]⟩

/-- The LOAD stage for an unrecognised width. -/
theorem loadStage_invalid (c : Config) {funct3 : BitVec 3} (hw : loadWidth funct3 = none) (rd rs1 : RegIdx)
    (imm : BitVec 12) (s : State) :
    loadStage c funct3 rd rs1 imm s = .fault (.decodeFailure (iWord imm rs1 funct3 rd .load)) := by
  simp [loadStage, hw, raise]

/-- Everything the STORE stage can answer for a recognised width: the bytes written and the pc advanced, or OutOfBounds. -/
theorem storeStage_cases (c : Config) {funct3 : BitVec 3} {w : Width} (hw : storeWidth funct3 = some w)
    (rs2 rs1 : RegIdx) (imm : BitVec 12) (s : State) :
    (inBounds c (effectiveAddress s rs1 imm).toNat w.bytes = true ∧
        storeStage c funct3 rs2 rs1 imm s =
          .next ((s.setMem (s.mem.writeAll (effectiveAddress s rs1 imm).toNat
            (leBytes w.bytes (s.readReg rs2)))).writeback .none)) ∨
      (inBounds c (effectiveAddress s rs1 imm).toNat w.bytes = false ∧
        storeStage c funct3 rs2 rs1 imm s = .fault (.outOfBounds (effectiveAddress s rs1 imm).toNat w.bytes)) := by
  unfold storeStage
  rcases Memory.memWrite_cases c s.mem (effectiveAddress s rs1 imm) w (s.readReg rs2) with ⟨h, e⟩ | ⟨h, e⟩
  · exact .inl ⟨h, by simp [hw, e, retire]⟩
  · exact .inr ⟨h, by simp [hw, e, raise]⟩

/-- The STORE stage for an unrecognised width. -/
theorem storeStage_invalid (c : Config) {funct3 : BitVec 3} (hw : storeWidth funct3 = none) (rs2 rs1 : RegIdx)
    (imm : BitVec 12) (s : State) :
    storeStage c funct3 rs2 rs1 imm s = .fault (.decodeFailure (sWord imm rs2 rs1 funct3 .store)) := by
  simp [storeStage, hw, raise]

/-- Everything the environment call can answer. -/
theorem ecallStage_cases (c : Config) (s : State) :
    (c.failAbove.toNat < (s.readReg c.reportReg).toNat ∧
        ecallStage c s = .fault (.guestTestFailure (s.readReg c.reportReg))) ∨
      ((s.readReg c.reportReg).toNat ≤ c.failAbove.toNat ∧
        ecallStage c s = .next ((s.emitReport (s.readReg c.reportReg)).writeback .none)) := by
  unfold ecallStage
  split
  · exact .inl ⟨‹_›, rfl⟩
  · exact .inr ⟨by omega, rfl⟩

/-! ## An instruction -/

/-- How an instruction that completes changes the state. -/
inductive Completes (i : Instr) (s : State) : State → Prop where
  /-- writeback only: an ALU result, a load, a jump, a branch, a no-op -/
  | wrote (wb : Writeback) : Completes i s (s.writeback wb)
  /-- a store in bounds, then the pc -/
  | stored (ea : Nat) (bytes : List Byte) (len : bytes.length ≤ 4)
      (ok : inBounds Config.reference ea bytes.length = true) :
      Completes i s ((s.setMem (s.mem.writeAll ea bytes)).writeback .none)
  /-- a report, then the pc -/
  | reported (ecall : ∃ rd rs1 imm, i = .ecall rd rs1 imm) :
      Completes i s ((s.emitReport (s.readReg Config.reference.reportReg)).writeback .none)
  /-- the sentinel's stop -/
  | stopped (sentinel : ∃ rd rs1, i = .sentinel rd rs1) : Completes i s { s with signal := .stop }

theorem branchStage_completes {i : Instr} {selector : BitVec 3} {rs1 rs2 : RegIdx} {offset : BitVec 13} {s t : State}
    (h : branchStage selector rs1 rs2 offset s = .next t) : Completes i s t := by
  rcases branchStage_cases selector rs1 rs2 offset s with ⟨_, e⟩ | ⟨_, e⟩ | ⟨f, _, e⟩ <;> rw [e] at h <;> cases h
  · exact .wrote _
  · exact .wrote _

theorem loadStage_completes {i : Instr} {c : Config} {funct3 : BitVec 3} {rd rs1 : RegIdx} {imm : BitVec 12} {s t : State}
    (h : loadStage c funct3 rd rs1 imm s = .next t) : Completes i s t := by
  cases hw : loadWidth funct3 with
  | none => rw [loadStage_invalid c hw] at h; cases h
  | some p =>
    rcases loadStage_cases c hw rd rs1 imm s with ⟨_, e⟩ | ⟨_, e⟩ <;> rw [e] at h <;> cases h
    exact .wrote _

theorem storeStage_completes {i : Instr} {funct3 : BitVec 3} {rs2 rs1 : RegIdx} {imm : BitVec 12} {s t : State}
    (h : storeStage Config.reference funct3 rs2 rs1 imm s = .next t) : Completes i s t := by
  cases hw : storeWidth funct3 with
  | none => rw [storeStage_invalid _ hw] at h; cases h
  | some w =>
    rcases storeStage_cases Config.reference hw rs2 rs1 imm s with ⟨hb, e⟩ | ⟨_, e⟩ <;> rw [e] at h <;> cases h
    exact .stored _ _ (by cases w <;> simp [Width.bytes]) (by simpa using hb)

/-- Everything an instruction can do when it completes. -/
theorem exec_completes {i : Instr} {s t : State} (h : exec i s = .next t) : Completes i s t := by
  cases i
  case sentinel rd rs1 => cases h; exact .stopped ⟨rd, rs1, rfl⟩
  case ecall rd rs1 imm =>
    rw [exec_ecall] at h
    rcases ecallStage_cases Config.reference s with ⟨_, e⟩ | ⟨_, e⟩ <;> rw [e] at h <;> cases h
    exact .reported ⟨rd, rs1, imm, rfl⟩
  all_goals try simp only [exec_beq, exec_bne, exec_blt, exec_bge, exec_bltu, exec_bgeu, exec_branchInvalid010,
    exec_branchInvalid011, exec_lb, exec_lh, exec_lw, exec_lbu, exec_lhu, exec_loadInvalid011, exec_loadInvalid110,
    exec_loadInvalid111, exec_sb, exec_sh, exec_sw, exec_storeInvalid011, exec_storeInvalid100, exec_storeInvalid101,
    exec_storeInvalid110, exec_storeInvalid111] at h
  all_goals first
    | exact branchStage_completes h
    | exact loadStage_completes h
    | exact storeStage_completes h
    | (cases h; exact .wrote _)
    | cases h

/-! ## A step -/

/-- Everything a step can do: the latched fault again, a fetch that fails, or the fetched instruction's own answer. -/
theorem step_cases (s : State) :
    (∃ f, s.status = .faulted f ∧ step s = .fault f) ∨
      (s.status = .ready ∧ inBounds Config.reference s.pc.toNat 4 = false ∧
        step s = .fault (.outOfBounds s.pc.toNat 4)) ∨
      (s.status = .ready ∧ fetch Config.reference s = .ok (s.mem.word s.pc.toNat) ∧
        step s = exec (decodeWord Config.reference (s.mem.word s.pc.toNat)) s) := by
  unfold step
  cases hs : s.status with
  | faulted f => exact .inl ⟨f, rfl, rfl⟩
  | ready =>
    rcases Memory.readWord_cases Config.reference s.mem s.pc with ⟨_, e⟩ | ⟨hb, e⟩
    · exact .inr (.inr ⟨rfl, e, by simp [fetch, e]⟩)
    · exact .inr (.inl ⟨rfl, hb, by simp [fetch, e, raise]⟩)

end Sys2Proof.Machine
end

