-- ==== Sys2Proof/Laws/Effects.lean ====
section
/-! SUPPORT. The shared ends of the instructions in the terms the statements use: what is written and what is left. -/

namespace Sys2Proof.Machine

section
variable (s : State) (rd : RegIdx) (v t : Word)

theorem wroteReg_result : WroteReg s (s.writeback (.result rd v)) rd v s.nextPc := by
  constructor <;> simp

theorem wroteReg_link : WroteReg s (s.writeback (.link rd t)) rd s.nextPc t := by
  constructor <;> simp

theorem wrotePcOnly_none : WrotePcOnly s (s.writeback .none) s.nextPc := by
  refine ⟨⟨?_, ?_, ?_⟩, ?_, ?_, ?_⟩ <;> simp

theorem wrotePcOnly_jump : WrotePcOnly s (s.writeback (.jump t)) t := by
  refine ⟨⟨?_, ?_, ?_⟩, ?_, ?_, ?_⟩ <;> simp

theorem wroteMem_store {s : State} (h : s.mem.wf = true) (ea n : Nat) :
    WroteMem s ((s.setMem (s.mem.writeAll ea (leBytes n v))).writeback .none) ea n v s.nextPc := by
  constructor
  case stored =>
    intro j hj
    rw [State.writeback_mem, State.setMem_mem, Memory.read_writeAll_leBytes h, if_pos (by omega), Nat.add_sub_cancel_left]
  case mem =>
    intro a ha
    rw [State.writeback_mem, State.setMem_mem, Memory.read_writeAll_leBytes h, if_neg (by omega)]
  all_goals simp
end

/-! ## The stages in those terms -/

theorem opStage_wrote (f : BitVec 3) (alternate : Bool) (rd rs1 rs2 : RegIdx) (s : State) :
    ∃ t, opStage f alternate rd rs1 rs2 s = .next t ∧
      WroteReg s t rd (aluResult f alternate (s.readReg rs1) (s.readReg rs2)) (s.pc + 4#32) := by
  rw [← arith_eq_aluResult]; exact ⟨_, rfl, wroteReg_result ..⟩

theorem opImmStage_wrote (f : BitVec 3) (alternate : Bool) (rd rs1 : RegIdx) (imm : Word) (s : State) :
    ∃ t, opImmStage f alternate rd rs1 imm s = .next t ∧
      WroteReg s t rd (aluResult f alternate (s.readReg rs1) imm) (s.pc + 4#32) := by
  rw [← arith_eq_aluResult]; exact ⟨_, rfl, wroteReg_result ..⟩

theorem branchStage_wrote {f : BitVec 3} (h2 : f ≠ 0b010#3) (h3 : f ≠ 0b011#3) (rs1 rs2 : RegIdx) (offset : BitVec 13)
    (s : State) :
    ∃ t, branchStage f rs1 rs2 offset s = .next t ∧
      (branchTaken f (s.readReg rs1) (s.readReg rs2) → WrotePcOnly s t (branchTarget s offset)) ∧
      (¬branchTaken f (s.readReg rs1) (s.readReg rs2) → WrotePcOnly s t (s.pc + 4#32)) := by
  obtain ⟨taken, h, iff⟩ := cond_supported h2 h3 (s.readReg rs1) (s.readReg rs2)
  rcases branchStage_cases f rs1 rs2 offset s with ⟨h', e⟩ | ⟨h', e⟩ | ⟨_, h', _⟩ <;> rw [h] at h' <;> cases h'
  · exact ⟨_, e, fun _ => wrotePcOnly_jump .., fun no => absurd (iff.1 rfl) no⟩
  · exact ⟨_, e, fun yes => absurd (iff.2 yes) (by simp), fun _ => wrotePcOnly_none ..⟩

theorem loadStage_wrote {f : BitVec 3} {w : Width} {signed : Bool} (hw : loadWidth f = some (w, signed))
    (rd rs1 : RegIdx) (imm : BitVec 12) (s : State)
    (hb : inBounds Config.reference (effectiveAddress s rs1 imm).toNat 4 = true) :
    ∃ t, loadStage Config.reference f rd rs1 imm s = .next t ∧
      WroteReg s t rd (extendLoad signed w (s.mem.word (effectiveAddress s rs1 imm).toNat &&& w.mask)) (s.pc + 4#32) := by
  rcases loadStage_cases Config.reference hw rd rs1 imm s with ⟨_, e⟩ | ⟨h, _⟩
  · exact ⟨_, e, wroteReg_result ..⟩
  · rw [hb] at h; cases h

theorem storeStage_wrote {f : BitVec 3} {w : Width} (hw : storeWidth f = some w) (rs2 rs1 : RegIdx) (imm : BitVec 12)
    {s : State} (hm : s.mem.wf = true)
    (hb : inBounds Config.reference (effectiveAddress s rs1 imm).toNat w.bytes = true) :
    ∃ t, storeStage Config.reference f rs2 rs1 imm s = .next t ∧
      WroteMem s t (effectiveAddress s rs1 imm).toNat w.bytes (s.readReg rs2) (s.pc + 4#32) := by
  rcases storeStage_cases Config.reference hw rs2 rs1 imm s with ⟨_, e⟩ | ⟨h, _⟩
  · exact ⟨_, e, wroteMem_store _ hm ..⟩
  · rw [hb] at h; cases h

/-! ## Immediates -/

/-- A shift amount is the low five bits of the immediate (43_integer_alu.md R141 to R143). -/
theorem shiftImm_amount (funct7 : BitVec 7) (shamt : BitVec 5) : (shiftImm funct7 shamt).toNat % 32 = shamt.toNat := by
  have low : (shiftImm funct7 shamt).setWidth 5 = shamt := by
    apply BitVec.eq_of_getLsbD_eq; intro i hi
    simp only [shiftImm, imm12Word, sext, BitVec.getLsbD_setWidth, BitVec.getLsbD_signExtend, BitVec.getLsbD_append]
    interval_cases i <;> simp
  simpa using congrArg BitVec.toNat low

/-- The upper immediate is its field times 4096 (30_encoding.md R65). -/
theorem immUWord_eq (imm20 : BitVec 20) : immUWord imm20 = BitVec.ofNat 32 (imm20.toNat * 4096) := by
  apply BitVec.eq_of_toNat_eq
  rw [immUWord, BitVec.toNat_append, BitVec.toNat_ofNat, BitVec.toNat_ofNat, Nat.zero_mod, Nat.or_zero, Nat.shiftLeft_eq]
  omega

/-- A 12-bit immediate keeps its signed value (R62, R63). -/
theorem imm12Word_toInt (imm : BitVec 12) : (imm12Word imm).toInt = imm.toInt :=
  BitVec.toInt_signExtend_of_le (by decide)

/-! ## A step -/

/-- A step runs the fetched word's instruction (40_execution_cycle.md R86). -/
theorem step_of_fetch {s : State} {w : Word} (hs : s.status = .ready) (hf : fetch Config.reference s = .ok w) :
    step s = exec (decodeWord Config.reference w) s := by
  simp [step, hs, hf]

/-- A step that completes began with the latch Ready and a word fetched. -/
theorem step_next_inv {s t : State} (h : step s = .next t) :
    ∃ w, s.status = .ready ∧ fetch Config.reference s = .ok w ∧ exec (decodeWord Config.reference w) s = .next t := by
  rcases step_cases s with ⟨f, _, e⟩ | ⟨_, _, e⟩ | ⟨hs, hf, e⟩
  · rw [e] at h; cases h
  · rw [e] at h; cases h
  · exact ⟨_, hs, hf, e ▸ h⟩

/-- A word just written reads back (20_memory.md R58). -/
theorem Memory.word_writeAll {m : Memory} (h : m.wf = true) (a : Nat) (v : Word) :
    (m.writeAll a (leBytes 4 v)).word a = v := by
  have byte : ∀ j, j < 4 → (m.writeAll a (leBytes 4 v)).read (a + j) = v.extractLsb' (8 * j) 8 := by
    intro j hj
    rw [Memory.read_writeAll_leBytes h, if_pos (by omega), Nat.add_sub_cancel_left]
  rw [Memory.word, byte 1 (by omega), byte 2 (by omega), byte 3 (by omega), show Memory.read _ a = _ from byte 0 (by omega)]
  exact leWord_bytes v

/-- What a load extends is the byte, the halfword or the word itself (44_load_store.md R145 to R149). -/
theorem extendLoad_word (b0 b1 b2 b3 : Byte) (signed : Bool) :
    extendLoad signed .byte (leWord b0 b1 b2 b3 &&& Width.byte.mask) =
        (if signed then b0.signExtend 32 else b0.setWidth 32) ∧
      extendLoad signed .half (leWord b0 b1 b2 b3 &&& Width.half.mask) =
        (if signed then (b1 ++ b0).signExtend 32 else (b1 ++ b0).setWidth 32) ∧
      extendLoad signed .word (leWord b0 b1 b2 b3 &&& Width.word.mask) = b3 ++ b2 ++ b1 ++ b0 := by
  have byte : (leWord b0 b1 b2 b3 &&& Width.byte.mask).setWidth 8 = b0 := by
    apply BitVec.eq_of_getLsbD_eq; intro i hi
    simp only [leWord, Width.mask, BitVec.getLsbD_setWidth, BitVec.getLsbD_and, BitVec.getLsbD_append]
    interval_cases i <;> simp
  have half : (leWord b0 b1 b2 b3 &&& Width.half.mask).setWidth 16 = b1 ++ b0 := by
    apply BitVec.eq_of_getLsbD_eq; intro i hi
    simp only [leWord, Width.mask, BitVec.getLsbD_setWidth, BitVec.getLsbD_and, BitVec.getLsbD_append]
    interval_cases i <;> simp
  have word : leWord b0 b1 b2 b3 &&& Width.word.mask = leWord b0 b1 b2 b3 := BitVec.and_allOnes
  refine ⟨?_, ?_, ?_⟩
  · cases signed <;> simp [extendLoad, byte, sext, zext]
  · cases signed <;> simp [extendLoad, half, sext, zext]
  · cases signed <;> exact word

end Sys2Proof.Machine
end

