-- ==== Sys2Proof/Laws/Encoding.lean ====
section
/-! SUPPORT. The fields of a word of each format, the lookup of an opcode class, and a word put together from its fields. -/

namespace Sys2Proof

/-! ## The opcode lookup (30_encoding.md R68) -/

/-- Each class is found by its own opcode. -/
@[simp] theorem lookupClass_bits (k : OpcodeClass) : lookupClass k.bits = some k := by cases k <;> decide

/-- The lookup finds a class only by its own opcode. -/
theorem bits_of_lookupClass {b : BitVec 7} {k : OpcodeClass} (h : lookupClass b = some k) : b = k.bits := by
  have := List.find?_some h
  simpa using (beq_iff_eq.1 this).symm

theorem lookupClass_eq_some_iff {b : BitVec 7} {k : OpcodeClass} : lookupClass b = some k ↔ b = k.bits :=
  ⟨bits_of_lookupClass, fun h => h ▸ lookupClass_bits k⟩

/-! ## R format -/

section
variable (funct7 : BitVec 7) (rs2 rs1 rd : RegIdx) (funct3 : BitVec 3) (k : OpcodeClass)

@[simp] theorem opcodeOf_rWord : opcodeOf (rWord funct7 rs2 rs1 funct3 rd k) = k.bits := by
  apply BitVec.eq_of_getLsbD_eq; intro i hi
  simp only [opcodeOf, rWord, BitVec.getLsbD_extractLsb', BitVec.getLsbD_append]
  interval_cases i <;> simp
@[simp] theorem rdOf_rWord : rdOf (rWord funct7 rs2 rs1 funct3 rd k) = rd := by
  apply BitVec.eq_of_getLsbD_eq; intro i hi
  simp only [rdOf, rWord, BitVec.getLsbD_extractLsb', BitVec.getLsbD_append]
  interval_cases i <;> simp
@[simp] theorem funct3Of_rWord : funct3Of (rWord funct7 rs2 rs1 funct3 rd k) = funct3 := by
  apply BitVec.eq_of_getLsbD_eq; intro i hi
  simp only [funct3Of, rWord, BitVec.getLsbD_extractLsb', BitVec.getLsbD_append]
  interval_cases i <;> simp
@[simp] theorem rs1Of_rWord : rs1Of (rWord funct7 rs2 rs1 funct3 rd k) = rs1 := by
  apply BitVec.eq_of_getLsbD_eq; intro i hi
  simp only [rs1Of, rWord, BitVec.getLsbD_extractLsb', BitVec.getLsbD_append]
  interval_cases i <;> simp
@[simp] theorem rs2Of_rWord : rs2Of (rWord funct7 rs2 rs1 funct3 rd k) = rs2 := by
  apply BitVec.eq_of_getLsbD_eq; intro i hi
  simp only [rs2Of, rWord, BitVec.getLsbD_extractLsb', BitVec.getLsbD_append]
  interval_cases i <;> simp
@[simp] theorem funct7Of_rWord : funct7Of (rWord funct7 rs2 rs1 funct3 rd k) = funct7 := by
  apply BitVec.eq_of_getLsbD_eq; intro i hi
  simp only [funct7Of, rWord, BitVec.getLsbD_extractLsb', BitVec.getLsbD_append]
  interval_cases i <;> simp
@[simp] theorem immIOf_rWord : immIOf (rWord funct7 rs2 rs1 funct3 rd k) = funct7 ++ rs2 := by
  apply BitVec.eq_of_getLsbD_eq; intro i hi
  simp only [immIOf, rWord, BitVec.getLsbD_extractLsb', BitVec.getLsbD_append]
  interval_cases i <;> simp
end

/-! ## I format -/

section
variable (imm : BitVec 12) (rs1 rd : RegIdx) (funct3 : BitVec 3) (k : OpcodeClass)

@[simp] theorem opcodeOf_iWord : opcodeOf (iWord imm rs1 funct3 rd k) = k.bits := by
  apply BitVec.eq_of_getLsbD_eq; intro i hi
  simp only [opcodeOf, iWord, BitVec.getLsbD_extractLsb', BitVec.getLsbD_append]
  interval_cases i <;> simp
@[simp] theorem rdOf_iWord : rdOf (iWord imm rs1 funct3 rd k) = rd := by
  apply BitVec.eq_of_getLsbD_eq; intro i hi
  simp only [rdOf, iWord, BitVec.getLsbD_extractLsb', BitVec.getLsbD_append]
  interval_cases i <;> simp
@[simp] theorem funct3Of_iWord : funct3Of (iWord imm rs1 funct3 rd k) = funct3 := by
  apply BitVec.eq_of_getLsbD_eq; intro i hi
  simp only [funct3Of, iWord, BitVec.getLsbD_extractLsb', BitVec.getLsbD_append]
  interval_cases i <;> simp
@[simp] theorem rs1Of_iWord : rs1Of (iWord imm rs1 funct3 rd k) = rs1 := by
  apply BitVec.eq_of_getLsbD_eq; intro i hi
  simp only [rs1Of, iWord, BitVec.getLsbD_extractLsb', BitVec.getLsbD_append]
  interval_cases i <;> simp
@[simp] theorem immIOf_iWord : immIOf (iWord imm rs1 funct3 rd k) = imm := by
  apply BitVec.eq_of_getLsbD_eq; intro i hi
  simp only [immIOf, iWord, BitVec.getLsbD_extractLsb', BitVec.getLsbD_append]
  interval_cases i <;> simp
end

/-! ## S format -/

section
variable (imm : BitVec 12) (rs2 rs1 : RegIdx) (funct3 : BitVec 3) (k : OpcodeClass)

@[simp] theorem opcodeOf_sWord : opcodeOf (sWord imm rs2 rs1 funct3 k) = k.bits := by
  apply BitVec.eq_of_getLsbD_eq; intro i hi
  simp only [opcodeOf, sWord, BitVec.getLsbD_extractLsb', BitVec.getLsbD_append]
  interval_cases i <;> simp
@[simp] theorem funct3Of_sWord : funct3Of (sWord imm rs2 rs1 funct3 k) = funct3 := by
  apply BitVec.eq_of_getLsbD_eq; intro i hi
  simp only [funct3Of, sWord, BitVec.getLsbD_extractLsb', BitVec.getLsbD_append]
  interval_cases i <;> simp
@[simp] theorem rs1Of_sWord : rs1Of (sWord imm rs2 rs1 funct3 k) = rs1 := by
  apply BitVec.eq_of_getLsbD_eq; intro i hi
  simp only [rs1Of, sWord, BitVec.getLsbD_extractLsb', BitVec.getLsbD_append]
  interval_cases i <;> simp
@[simp] theorem rs2Of_sWord : rs2Of (sWord imm rs2 rs1 funct3 k) = rs2 := by
  apply BitVec.eq_of_getLsbD_eq; intro i hi
  simp only [rs2Of, sWord, BitVec.getLsbD_extractLsb', BitVec.getLsbD_append]
  interval_cases i <;> simp
@[simp] theorem immSOf_sWord : immSOf (sWord imm rs2 rs1 funct3 k) = imm := by
  apply BitVec.eq_of_getLsbD_eq; intro i hi
  simp only [immSOf, sWord, BitVec.getLsbD_extractLsb', BitVec.getLsbD_append]
  interval_cases i <;> simp
end

/-! ## B format -/

section
variable (offset : BitVec 13) (rs2 rs1 : RegIdx) (funct3 : BitVec 3) (k : OpcodeClass)

@[simp] theorem opcodeOf_bWord : opcodeOf (bWord offset rs2 rs1 funct3 k) = k.bits := by
  apply BitVec.eq_of_getLsbD_eq; intro i hi
  simp only [opcodeOf, bWord, BitVec.getLsbD_extractLsb', BitVec.getLsbD_append]
  interval_cases i <;> simp
@[simp] theorem funct3Of_bWord : funct3Of (bWord offset rs2 rs1 funct3 k) = funct3 := by
  apply BitVec.eq_of_getLsbD_eq; intro i hi
  simp only [funct3Of, bWord, BitVec.getLsbD_extractLsb', BitVec.getLsbD_append]
  interval_cases i <;> simp
@[simp] theorem rs1Of_bWord : rs1Of (bWord offset rs2 rs1 funct3 k) = rs1 := by
  apply BitVec.eq_of_getLsbD_eq; intro i hi
  simp only [rs1Of, bWord, BitVec.getLsbD_extractLsb', BitVec.getLsbD_append]
  interval_cases i <;> simp
@[simp] theorem rs2Of_bWord : rs2Of (bWord offset rs2 rs1 funct3 k) = rs2 := by
  apply BitVec.eq_of_getLsbD_eq; intro i hi
  simp only [rs2Of, bWord, BitVec.getLsbD_extractLsb', BitVec.getLsbD_append]
  interval_cases i <;> simp
theorem immBOf_bWord (h : offset.getLsbD 0 = false) : immBOf (bWord offset rs2 rs1 funct3 k) = offset := by
  have h0 : offset[0] = false := by simpa using h
  apply BitVec.eq_of_getLsbD_eq; intro i hi
  simp only [immBOf, bWord, BitVec.getLsbD_extractLsb', BitVec.getLsbD_append]
  interval_cases i <;> simp [h0]
end

/-! ## U and J formats -/

section
variable (imm20 : BitVec 20) (offset : BitVec 21) (rd : RegIdx) (k : OpcodeClass)

@[simp] theorem opcodeOf_uWord : opcodeOf (uWord imm20 rd k) = k.bits := by
  apply BitVec.eq_of_getLsbD_eq; intro i hi
  simp only [opcodeOf, uWord, BitVec.getLsbD_extractLsb', BitVec.getLsbD_append]
  interval_cases i <;> simp
@[simp] theorem rdOf_uWord : rdOf (uWord imm20 rd k) = rd := by
  apply BitVec.eq_of_getLsbD_eq; intro i hi
  simp only [rdOf, uWord, BitVec.getLsbD_extractLsb', BitVec.getLsbD_append]
  interval_cases i <;> simp
@[simp] theorem immUOf_uWord : immUOf (uWord imm20 rd k) = imm20 := by
  apply BitVec.eq_of_getLsbD_eq; intro i hi
  simp only [immUOf, uWord, BitVec.getLsbD_extractLsb', BitVec.getLsbD_append]
  interval_cases i <;> simp
@[simp] theorem opcodeOf_jWord : opcodeOf (jWord offset rd k) = k.bits := by
  apply BitVec.eq_of_getLsbD_eq; intro i hi
  simp only [opcodeOf, jWord, BitVec.getLsbD_extractLsb', BitVec.getLsbD_append]
  interval_cases i <;> simp
@[simp] theorem rdOf_jWord : rdOf (jWord offset rd k) = rd := by
  apply BitVec.eq_of_getLsbD_eq; intro i hi
  simp only [rdOf, jWord, BitVec.getLsbD_extractLsb', BitVec.getLsbD_append]
  interval_cases i <;> simp
theorem immJOf_jWord (h : offset.getLsbD 0 = false) : immJOf (jWord offset rd k) = offset := by
  have h0 : offset[0] = false := by simpa using h
  apply BitVec.eq_of_getLsbD_eq; intro i hi
  simp only [immJOf, jWord, BitVec.getLsbD_extractLsb', BitVec.getLsbD_append]
  interval_cases i <;> simp [h0]
end

/-! ## A word put together from its own fields -/

section
variable {w : Word} {k : OpcodeClass}

theorem rWord_fields (h : opcodeOf w = k.bits) :
    rWord (funct7Of w) (rs2Of w) (rs1Of w) (funct3Of w) (rdOf w) k = w := by
  rw [rWord, ← h]
  apply BitVec.eq_of_getLsbD_eq; intro i hi
  simp only [opcodeOf, funct7Of, rs2Of, rs1Of, funct3Of, rdOf, BitVec.getLsbD_append, BitVec.getLsbD_extractLsb']
  interval_cases i <;> simp

theorem iWord_fields (h : opcodeOf w = k.bits) : iWord (immIOf w) (rs1Of w) (funct3Of w) (rdOf w) k = w := by
  rw [iWord, ← h]
  apply BitVec.eq_of_getLsbD_eq; intro i hi
  simp only [opcodeOf, immIOf, rs1Of, funct3Of, rdOf, BitVec.getLsbD_append, BitVec.getLsbD_extractLsb']
  interval_cases i <;> simp

theorem sWord_fields (h : opcodeOf w = k.bits) : sWord (immSOf w) (rs2Of w) (rs1Of w) (funct3Of w) k = w := by
  rw [sWord, ← h]
  apply BitVec.eq_of_getLsbD_eq; intro i hi
  simp only [opcodeOf, immSOf, rs2Of, rs1Of, funct3Of, BitVec.getLsbD_append, BitVec.getLsbD_extractLsb']
  interval_cases i <;> simp

theorem bWord_fields (h : opcodeOf w = k.bits) : bWord (immBOf w) (rs2Of w) (rs1Of w) (funct3Of w) k = w := by
  rw [bWord, ← h]
  apply BitVec.eq_of_getLsbD_eq; intro i hi
  simp only [opcodeOf, immBOf, rs2Of, rs1Of, funct3Of, BitVec.getLsbD_append, BitVec.getLsbD_extractLsb']
  interval_cases i <;> simp

theorem uWord_fields (h : opcodeOf w = k.bits) : uWord (immUOf w) (rdOf w) k = w := by
  rw [uWord, ← h]
  apply BitVec.eq_of_getLsbD_eq; intro i hi
  simp only [opcodeOf, immUOf, rdOf, BitVec.getLsbD_append, BitVec.getLsbD_extractLsb']
  interval_cases i <;> simp

theorem jWord_fields (h : opcodeOf w = k.bits) : jWord (immJOf w) (rdOf w) k = w := by
  rw [jWord, ← h]
  apply BitVec.eq_of_getLsbD_eq; intro i hi
  simp only [opcodeOf, immJOf, rdOf, BitVec.getLsbD_append, BitVec.getLsbD_extractLsb']
  interval_cases i <;> simp
end

/-- The B and J immediates of a word are even (R64, R66). -/
@[simp] theorem immBOf_even (w : Word) : (immBOf w)[0] = false := by
  rw [← BitVec.getLsbD_eq_getElem]
  simp only [immBOf, BitVec.getLsbD_append]
  simp
@[simp] theorem immJOf_even (w : Word) : (immJOf w)[0] = false := by
  rw [← BitVec.getLsbD_eq_getElem]
  simp only [immJOf, BitVec.getLsbD_append]
  simp

/-- The I-immediate is funct7 above rs2 (R61). -/
theorem immIOf_eq (w : Word) : immIOf w = funct7Of w ++ rs2Of w := by
  apply BitVec.eq_of_getLsbD_eq; intro i hi
  simp only [immIOf, funct7Of, rs2Of, BitVec.getLsbD_append, BitVec.getLsbD_extractLsb']
  interval_cases i <;> simp

end Sys2Proof
end

