-- ==== Sys2Proof/Laws/Classes.lean ====
section
/-! SUPPORT. What `exec` does with a decoded word of each class, over the word's own fields. -/

namespace Sys2Proof.Machine

/-- The class of a word by its opcode. -/
theorem lookupClass_of_opcode {w : Word} {k : OpcodeClass} (h : opcodeOf w = k.bits) : lookupClass (opcodeOf w) = some k :=
  h ▸ lookupClass_bits k

section
variable (w : Word) (s : State)

theorem exec_decodeBranch :
    exec (decodeBranch w) s = branchStage (funct3Of w) (rs1Of w) (rs2Of w) (immBOf w) s := by
  unfold decodeBranch
  rcases selector_cases (funct3Of w) with h | h | h | h | h | h | h | h <;> rw [h] <;> rfl

theorem exec_decodeOp :
    exec (decodeOp w) s = opStage (funct3Of w) (altOp (funct7Of w)) (rdOf w) (rs1Of w) (rs2Of w) s := by
  unfold decodeOp
  by_cases hf : funct7Of w = altFunct7
  · rcases selector_cases (funct3Of w) with h | h | h | h | h | h | h | h <;> rw [h] <;> simp [hf, altOp]
  · have hf' : (funct7Of w == altFunct7) = false := by simpa using hf
    rcases selector_cases (funct3Of w) with h | h | h | h | h | h | h | h <;> rw [h] <;> simp [hf, hf', altOp]

theorem exec_decodeOpImm :
    exec (decodeOpImm w) s =
      opImmStage (funct3Of w) (altOpImm (funct3Of w) (funct7Of w)) (rdOf w) (rs1Of w) (imm12Word (immIOf w)) s := by
  unfold decodeOpImm
  have upper : (immIOf w).extractLsb' 5 7 = funct7Of w := by
    apply BitVec.eq_of_getLsbD_eq; intro i hi
    simp only [immIOf, funct7Of, BitVec.getLsbD_extractLsb']
    interval_cases i <;> simp
  have whole : shiftImm (funct7Of w) (rs2Of w) = imm12Word (immIOf w) := by rw [shiftImm, immIOf_eq]
  by_cases hf : funct7Of w = altFunct7
  · rw [hf] at whole
    rcases selector_cases (funct3Of w) with h | h | h | h | h | h | h | h <;> rw [h] <;>
      simp [altOpImm, upper, whole, hf]
  · have hf' : (funct7Of w == altFunct7) = false := by simpa using hf
    rcases selector_cases (funct3Of w) with h | h | h | h | h | h | h | h <;> rw [h] <;>
      simp [altOpImm, upper, whole, hf, hf']

theorem exec_decodeLoad :
    exec (decodeLoad w) s = loadStage Config.reference (funct3Of w) (rdOf w) (rs1Of w) (immIOf w) s := by
  unfold decodeLoad
  rcases selector_cases (funct3Of w) with h | h | h | h | h | h | h | h <;> rw [h] <;> rfl

theorem exec_decodeStore :
    exec (decodeStore w) s = storeStage Config.reference (funct3Of w) (rs2Of w) (rs1Of w) (immSOf w) s := by
  unfold decodeStore
  rcases selector_cases (funct3Of w) with h | h | h | h | h | h | h | h <;> rw [h] <;> rfl
end

/-! ## Everything a step that completes can have done, by the class of the fetched word -/

/-- What a step that completes did with the word `w` it fetched. -/
inductive StepDid (w : Word) (s : State) : State → Prop where
  /-- LUI, AUIPC, OP, OP-IMM, LOAD: a result for rd, and the pc advances -/
  | result (v : Word) (k : OpcodeClass) (op : opcodeOf w = k.bits) (plain : k ∈ [.lui, .auipc, .op, .opImm, .load]) :
      StepDid w s (s.writeback (.result (rdOf w) v))
  | jal (op : opcodeOf w = OpcodeClass.jal.bits) :
      StepDid w s (s.writeback (.link (rdOf w) (s.pc + immJWord (immJOf w))))
  | jalr (op : opcodeOf w = OpcodeClass.jalr.bits) :
      StepDid w s (s.writeback (.link (rdOf w) (s.readReg (rs1Of w) + imm12Word (immIOf w))))
  | taken (op : opcodeOf w = OpcodeClass.branch.bits)
      (yes : branchTaken (funct3Of w) (s.readReg (rs1Of w)) (s.readReg (rs2Of w))) :
      StepDid w s (s.writeback (.jump (s.pc + immBWord (immBOf w))))
  | notTaken (op : opcodeOf w = OpcodeClass.branch.bits)
      (no : ¬branchTaken (funct3Of w) (s.readReg (rs1Of w)) (s.readReg (rs2Of w))) :
      StepDid w s (s.writeback .none)
  | store (op : opcodeOf w = OpcodeClass.store.bits) (width : Width) (hw : storeWidth (funct3Of w) = some width)
      (ok : inBounds Config.reference (effectiveAddress s (rs1Of w) (immSOf w)).toNat width.bytes = true) :
      StepDid w s ((s.setMem (s.mem.writeAll (effectiveAddress s (rs1Of w) (immSOf w)).toNat
        (leBytes width.bytes (s.readReg (rs2Of w))))).writeback .none)
  /-- MISC-MEM, and the SYSTEM words that are no-ops -/
  | noOp (op : opcodeOf w = OpcodeClass.miscMem.bits ∨ opcodeOf w = OpcodeClass.system.bits) :
      StepDid w s (s.writeback .none)
  | report (op : opcodeOf w = OpcodeClass.system.bits)
      (sentinel : isSentinel Config.reference (funct3Of w) (immIOf w) = false) (ecall : isEcall Config.reference w = true)
      (le : (s.readReg 3#5).toNat ≤ 1) : StepDid w s ((s.emitReport (s.readReg 3#5)).writeback .none)
  | stop (op : opcodeOf w = OpcodeClass.system.bits)
      (sentinel : isSentinel Config.reference (funct3Of w) (immIOf w) = true) : StepDid w s { s with signal := .stop }

theorem exec_decodeWord_did {w : Word} {s t : State} (h : exec (decodeWord Config.reference w) s = .next t) :
    StepDid w s t := by
  cases hk : lookupClass (opcodeOf w) with
  | none => simp only [decodeWord, hk] at h; cases h
  | some k =>
    have op := bits_of_lookupClass hk
    cases k <;> simp only [decodeWord, hk] at h
    case jal => cases h; exact .jal op
    case jalr => cases h; exact .jalr op
    case lui => cases h; exact .result _ _ op (by simp)
    case auipc => cases h; exact .result _ _ op (by simp)
    case op => rw [exec_decodeOp] at h; cases h; exact .result _ _ op (by simp)
    case opImm => rw [exec_decodeOpImm] at h; cases h; exact .result _ _ op (by simp)
    case miscMem => cases h; exact .noOp (.inl op)
    case branch =>
      rw [exec_decodeBranch] at h
      by_cases bad : funct3Of w = 0b010#3 ∨ funct3Of w = 0b011#3
      · rcases branchStage_cases (funct3Of w) (rs1Of w) (rs2Of w) (immBOf w) s with ⟨c, _⟩ | ⟨c, _⟩ | ⟨_, _, e⟩
        · rw [cond_unsupported bad] at c; cases c
        · rw [cond_unsupported bad] at c; cases c
        · rw [e] at h; cases h
      · rw [not_or] at bad
        obtain ⟨taken, hc, iff⟩ := cond_supported bad.1 bad.2 (s.readReg (rs1Of w)) (s.readReg (rs2Of w))
        rcases branchStage_cases (funct3Of w) (rs1Of w) (rs2Of w) (immBOf w) s with ⟨c, e⟩ | ⟨c, e⟩ | ⟨_, c, _⟩ <;>
          rw [hc] at c <;> cases c <;> rw [e] at h <;> cases h
        · exact .taken op (iff.1 rfl)
        · exact .notTaken op fun yes => absurd (iff.2 yes) (by simp)
    case load =>
      rw [exec_decodeLoad] at h
      cases hw : loadWidth (funct3Of w) with
      | none => rw [loadStage_invalid _ hw] at h; cases h
      | some p =>
        rcases loadStage_cases Config.reference hw (rdOf w) (rs1Of w) (immIOf w) s with ⟨_, e⟩ | ⟨_, e⟩ <;>
          rw [e] at h <;> cases h
        exact .result _ _ op (by simp)
    case store =>
      rw [exec_decodeStore] at h
      cases hw : storeWidth (funct3Of w) with
      | none => rw [storeStage_invalid _ hw] at h; cases h
      | some p =>
        rcases storeStage_cases Config.reference hw (rs2Of w) (rs1Of w) (immSOf w) s with ⟨ok, e⟩ | ⟨_, e⟩ <;>
          rw [e] at h <;> cases h
        exact .store op p hw ok
    case system =>
      unfold decodeSystem at h
      split_ifs at h with hs he
      · cases h; exact .stop op hs
      · rw [exec_ecall] at h
        rcases ecallStage_cases Config.reference s with ⟨_, e⟩ | ⟨le, e⟩ <;> rw [e] at h <;> cases h
        exact .report op (by simpa using hs) he le
      · cases h; exact .noOp (.inr op)

/-- Everything a step that completes can have done. -/
theorem step_did {s t : State} (h : step s = .next t) :
    ∃ w, s.status = .ready ∧ fetch Config.reference s = .ok w ∧ StepDid w s t := by
  obtain ⟨w, hs, hf, he⟩ := step_next_inv h
  exact ⟨w, hs, hf, exec_decodeWord_did he⟩

end Sys2Proof.Machine
end

