-- ==== Sys2Proof/Laws/Host.lean ====
section
/-! SUPPORT. Everything the loader's write can answer, and what loading segments that lie in the window leaves. -/

namespace Sys2Proof.Machine

/-- Everything the loader's write can answer (70_reset_and_hazards.md R182). -/
theorem hostWriteBytes_cases (c : Config) (addr : Nat) (bytes : List Byte) (s : State) :
    (inBounds c addr bytes.length = true ∧ hostWriteBytes c addr bytes s = (s.setMem (s.mem.writeAll addr bytes), none)) ∨
      (inBounds c addr bytes.length = false ∧
        hostWriteBytes c addr bytes s =
          (s.latchFault (.outOfBounds addr bytes.length), some (.outOfBounds addr bytes.length))) := by
  unfold hostWriteBytes
  rcases Memory.writeBytes_cases c s.mem addr bytes with ⟨h, e⟩ | ⟨h, e⟩ <;> simp [h, e]

/-- A segment in the window is written, and loading goes on (R186). -/
theorem loadSegments_cons {addr : Nat} {bytes : List Byte} (h : inBounds Config.reference addr bytes.length = true)
    (rest : List (Nat × List Byte)) (s : State) :
    loadSegments ((addr, bytes) :: rest) s = loadSegments rest (s.setMem (s.mem.writeAll addr bytes)) := by
  rcases hostWriteBytes_cases Config.reference addr bytes s with ⟨_, e⟩ | ⟨h', _⟩
  · simp [loadSegments, e]
  · rw [h] at h'; cases h'

/-- Segments in the window are loaded one group after the other. -/
theorem loadSegments_append {earlier : List (Nat × List Byte)}
    (h : ∀ seg ∈ earlier, inBounds Config.reference seg.1 seg.2.length = true) (later : List (Nat × List Byte)) (s : State) :
    loadSegments (earlier ++ later) s = loadSegments later (loadSegments earlier s) := by
  induction earlier generalizing s with
  | nil => rfl
  | cons seg rest ih =>
    obtain ⟨addr, bytes⟩ := seg
    have hseg := h (addr, bytes) List.mem_cons_self
    rw [List.cons_append, loadSegments_cons hseg, loadSegments_cons hseg]
    exact ih (fun seg hs => h seg (List.mem_cons_of_mem _ hs)) _

/-- Loading segments in the window keeps registers, latch and the canonical form, and every byte in no segment. -/
theorem loadSegments_frame {segments : List (Nat × List Byte)}
    (h : ∀ seg ∈ segments, inBounds Config.reference seg.1 seg.2.length = true) {s : State} (hm : s.mem.wf = true) :
    (loadSegments segments s).regs = s.regs ∧ (loadSegments segments s).status = s.status ∧
      (loadSegments segments s).mem.wf = true ∧
      ∀ a, (∀ seg ∈ segments, a < seg.1 ∨ seg.1 + seg.2.length ≤ a) →
        (loadSegments segments s).mem.read a = s.mem.read a := by
  induction segments generalizing s with
  | nil => exact ⟨rfl, rfl, hm, fun _ _ => rfl⟩
  | cons seg rest ih =>
    obtain ⟨addr, bytes⟩ := seg
    rw [loadSegments_cons (h (addr, bytes) List.mem_cons_self)]
    obtain ⟨regs, status, wf, frame⟩ := ih (s := s.setMem (s.mem.writeAll addr bytes))
      (fun seg hs => h seg (List.mem_cons_of_mem _ hs)) (Memory.writeAll_wf hm addr bytes)
    refine ⟨regs, status, wf, fun a ha => ?_⟩
    rw [frame a fun seg hs => ha seg (List.mem_cons_of_mem _ hs), State.setMem_mem, Memory.read_writeAll hm, if_neg]
    have outside := ha (addr, bytes) List.mem_cons_self
    simp only at outside
    omega

end Sys2Proof.Machine
end

