-- ==== Sys2Proof/Laws/OpcodeTable.lean ====
section
/-! SUPPORT. A word under the four masks of opcode_table.json, in terms of its fields. -/

namespace Sys2Proof

set_option Elab.async false -- one declaration after another: the sandbox limits threads

section
variable (w : Word)

theorem and_mask_opcode : w &&& 0x0000007F#32 = (opcodeOf w).setWidth 32 := by
  apply BitVec.eq_of_getLsbD_eq; intro i hi
  simp only [opcodeOf, BitVec.getLsbD_and, BitVec.getLsbD_setWidth, BitVec.getLsbD_extractLsb']
  interval_cases i <;> simp

theorem and_mask_funct3 : w &&& 0x0000707F#32 = (funct3Of w).setWidth 32 <<< 12 ||| (opcodeOf w).setWidth 32 := by
  apply BitVec.eq_of_getLsbD_eq; intro i hi
  simp only [opcodeOf, funct3Of, BitVec.getLsbD_and, BitVec.getLsbD_or, BitVec.getLsbD_shiftLeft, BitVec.getLsbD_setWidth,
    BitVec.getLsbD_extractLsb']
  interval_cases i <;> simp

/-- The fields a word keeps under a mask that covers them. -/
theorem fields_of_and {m p : Word} (h : w &&& m = p) :
    (opcodeOf m = BitVec.allOnes 7 → opcodeOf w = opcodeOf p) ∧
      (funct3Of m = BitVec.allOnes 3 → funct3Of w = funct3Of p) ∧
      (funct7Of m = BitVec.allOnes 7 → funct7Of w = funct7Of p) ∧
      (immIOf m = BitVec.allOnes 12 → immIOf w = immIOf p) := by
  have keep : ∀ (lo len : Nat), m.extractLsb' lo len = BitVec.allOnes len → w.extractLsb' lo len = p.extractLsb' lo len := by
    intro lo len ones
    apply BitVec.eq_of_getLsbD_eq; intro i hi
    have bit := congrArg (fun v => v.getLsbD i) ones
    simp only [BitVec.getLsbD_extractLsb', BitVec.getLsbD_allOnes, hi, decide_true, Bool.true_and] at bit
    simp only [← h, BitVec.getLsbD_extractLsb', BitVec.getLsbD_and, bit, Bool.and_true]
  exact ⟨keep 0 7, keep 12 3, keep 25 7, keep 20 12⟩

/-- The rows with funct7: SUB, SRA, SRAI. -/
theorem and_mask_funct7_iff (funct7 : BitVec 7) (funct3 : BitVec 3) (k : OpcodeClass) :
    w &&& 0xFE00707F#32 = rWord funct7 0#5 0#5 funct3 0#5 k ↔
      funct7Of w = funct7 ∧ funct3Of w = funct3 ∧ opcodeOf w = k.bits := by
  constructor
  · intro h
    obtain ⟨op, f3, f7, _⟩ := fields_of_and w h
    simp only [opcodeOf_rWord, funct3Of_rWord, funct7Of_rWord] at op f3 f7
    exact ⟨f7 (by decide), f3 (by decide), op (by decide)⟩
  · rintro ⟨rfl, rfl, op⟩
    rw [rWord, ← op]
    apply BitVec.eq_of_getLsbD_eq; intro i hi
    simp only [opcodeOf, funct3Of, funct7Of, BitVec.getLsbD_and, BitVec.getLsbD_append, BitVec.getLsbD_extractLsb']
    interval_cases i <;> simp

/-- The row with the whole I-immediate: SENTINEL. -/
theorem and_mask_immI_iff (imm : BitVec 12) (funct3 : BitVec 3) (k : OpcodeClass) :
    w &&& 0xFFF0707F#32 = iWord imm 0#5 funct3 0#5 k ↔ immIOf w = imm ∧ funct3Of w = funct3 ∧ opcodeOf w = k.bits := by
  constructor
  · intro h
    obtain ⟨op, f3, _, im⟩ := fields_of_and w h
    simp only [opcodeOf_iWord, funct3Of_iWord, immIOf_iWord] at op f3 im
    exact ⟨im (by decide), f3 (by decide), op (by decide)⟩
  · rintro ⟨rfl, rfl, op⟩
    rw [iWord, ← op]
    apply BitVec.eq_of_getLsbD_eq; intro i hi
    simp only [opcodeOf, funct3Of, immIOf, BitVec.getLsbD_and, BitVec.getLsbD_append, BitVec.getLsbD_extractLsb']
    interval_cases i <;> simp
end

/-- Where no earlier row matches, the last row is the answer. -/
theorem bestRow_last {w : Word} {rows : List OpcodeRow} {r : OpcodeRow} (h : ∀ q ∈ rows, w &&& q.mask ≠ q.pattern)
    (hr : w &&& r.mask = r.pattern) : bestRow w (rows ++ [r]) = some r := by
  induction rows with
  | nil => simp [bestRow, hr]
  | cons q rest ih =>
    simp [bestRow, h q List.mem_cons_self, ih fun x hx => h x (List.mem_cons_of_mem _ hx)]

end Sys2Proof
end

