-- ==== Sys2Proof/Laws/PerInstr.lean ====
section
/-! SUPPORT. Statements about every instruction as syntax, one lemma per constructor. -/

namespace Sys2Proof

/-- The opcode class of each instruction's row (30_encoding.md R68), `none` for a DECODE-FAILURE word. -/
def classOf : Instr → Option OpcodeClass
  | .lui .. => some .lui
  | .auipc .. => some .auipc
  | .jal .. => some .jal
  | .jalr .. => some .jalr
  | .beq .. | .bne .. | .blt .. | .bge .. | .bltu .. | .bgeu .. | .branchInvalid010 .. | .branchInvalid011 .. => some .branch
  | .sub .. | .add .. | .sll .. | .slt .. | .sltu .. | .xor .. | .sra .. | .srl .. | .or .. | .and .. => some .op
  | .addi .. | .slti .. | .sltiu .. | .xori .. | .ori .. | .andi .. | .slli .. | .srai .. | .srli .. => some .opImm
  | .lb .. | .lh .. | .lw .. | .lbu .. | .lhu .. | .loadInvalid011 .. | .loadInvalid110 .. | .loadInvalid111 .. => some .load
  | .sb .. | .sh .. | .sw .. | .storeInvalid011 .. | .storeInvalid100 .. | .storeInvalid101 .. | .storeInvalid110 ..
  | .storeInvalid111 .. => some .store
  | .fence .. => some .miscMem
  | .sentinel .. | .ecall .. | .systemNop .. => some .system
  | .decodeFailure .. => none

end Sys2Proof

set_option Elab.async false

namespace Sys2Proof.Laws.OpcodeClassOfWord

/-- The encoded word of a well-formed instruction has the opcode of its class, under every configuration. -/
def Statement (i : Instr) : Prop := ∀ c : Config, i.wf c = true → lookupClass (opcodeOf (encodeWord c i)) = classOf i

theorem lui (rd : RegIdx) (imm20 : BitVec 20) : Statement (.lui rd imm20) := by
  intro c _; simp [encodeWord, classOf]
theorem auipc (rd : RegIdx) (imm20 : BitVec 20) : Statement (.auipc rd imm20) := by
  intro c _; simp [encodeWord, classOf]
theorem jal (rd : RegIdx) (offset : BitVec 21) : Statement (.jal rd offset) := by
  intro c _; simp [encodeWord, classOf]
theorem jalr (rd rs1 : RegIdx) (imm : BitVec 12) (funct3 : BitVec 3) : Statement (.jalr rd rs1 imm funct3) := by
  intro c _; simp [encodeWord, classOf]
theorem beq (rs1 rs2 : RegIdx) (offset : BitVec 13) : Statement (.beq rs1 rs2 offset) := by
  intro c _; simp [encodeWord, classOf]
theorem bne (rs1 rs2 : RegIdx) (offset : BitVec 13) : Statement (.bne rs1 rs2 offset) := by
  intro c _; simp [encodeWord, classOf]
theorem blt (rs1 rs2 : RegIdx) (offset : BitVec 13) : Statement (.blt rs1 rs2 offset) := by
  intro c _; simp [encodeWord, classOf]
theorem bge (rs1 rs2 : RegIdx) (offset : BitVec 13) : Statement (.bge rs1 rs2 offset) := by
  intro c _; simp [encodeWord, classOf]
theorem bltu (rs1 rs2 : RegIdx) (offset : BitVec 13) : Statement (.bltu rs1 rs2 offset) := by
  intro c _; simp [encodeWord, classOf]
theorem bgeu (rs1 rs2 : RegIdx) (offset : BitVec 13) : Statement (.bgeu rs1 rs2 offset) := by
  intro c _; simp [encodeWord, classOf]
theorem branchInvalid010 (rs1 rs2 : RegIdx) (offset : BitVec 13) : Statement (.branchInvalid010 rs1 rs2 offset) := by
  intro c _; simp [encodeWord, classOf]
theorem branchInvalid011 (rs1 rs2 : RegIdx) (offset : BitVec 13) : Statement (.branchInvalid011 rs1 rs2 offset) := by
  intro c _; simp [encodeWord, classOf]
theorem sub (rd rs1 rs2 : RegIdx) : Statement (.sub rd rs1 rs2) := by
  intro c _; simp [encodeWord, classOf]
theorem add (rd rs1 rs2 : RegIdx) (funct7 : BitVec 7) : Statement (.add rd rs1 rs2 funct7) := by
  intro c _; simp [encodeWord, classOf]
theorem sll (rd rs1 rs2 : RegIdx) (funct7 : BitVec 7) : Statement (.sll rd rs1 rs2 funct7) := by
  intro c _; simp [encodeWord, classOf]
theorem slt (rd rs1 rs2 : RegIdx) (funct7 : BitVec 7) : Statement (.slt rd rs1 rs2 funct7) := by
  intro c _; simp [encodeWord, classOf]
theorem sltu (rd rs1 rs2 : RegIdx) (funct7 : BitVec 7) : Statement (.sltu rd rs1 rs2 funct7) := by
  intro c _; simp [encodeWord, classOf]
theorem xor (rd rs1 rs2 : RegIdx) (funct7 : BitVec 7) : Statement (.xor rd rs1 rs2 funct7) := by
  intro c _; simp [encodeWord, classOf]
theorem sra (rd rs1 rs2 : RegIdx) : Statement (.sra rd rs1 rs2) := by
  intro c _; simp [encodeWord, classOf]
theorem srl (rd rs1 rs2 : RegIdx) (funct7 : BitVec 7) : Statement (.srl rd rs1 rs2 funct7) := by
  intro c _; simp [encodeWord, classOf]
theorem or (rd rs1 rs2 : RegIdx) (funct7 : BitVec 7) : Statement (.or rd rs1 rs2 funct7) := by
  intro c _; simp [encodeWord, classOf]
theorem and (rd rs1 rs2 : RegIdx) (funct7 : BitVec 7) : Statement (.and rd rs1 rs2 funct7) := by
  intro c _; simp [encodeWord, classOf]
theorem addi (rd rs1 : RegIdx) (imm : BitVec 12) : Statement (.addi rd rs1 imm) := by
  intro c _; simp [encodeWord, classOf]
theorem slti (rd rs1 : RegIdx) (imm : BitVec 12) : Statement (.slti rd rs1 imm) := by
  intro c _; simp [encodeWord, classOf]
theorem sltiu (rd rs1 : RegIdx) (imm : BitVec 12) : Statement (.sltiu rd rs1 imm) := by
  intro c _; simp [encodeWord, classOf]
theorem xori (rd rs1 : RegIdx) (imm : BitVec 12) : Statement (.xori rd rs1 imm) := by
  intro c _; simp [encodeWord, classOf]
theorem ori (rd rs1 : RegIdx) (imm : BitVec 12) : Statement (.ori rd rs1 imm) := by
  intro c _; simp [encodeWord, classOf]
theorem andi (rd rs1 : RegIdx) (imm : BitVec 12) : Statement (.andi rd rs1 imm) := by
  intro c _; simp [encodeWord, classOf]
theorem slli (rd rs1 : RegIdx) (shamt : BitVec 5) (funct7 : BitVec 7) : Statement (.slli rd rs1 shamt funct7) := by
  intro c _; simp [encodeWord, classOf]
theorem srai (rd rs1 : RegIdx) (shamt : BitVec 5) : Statement (.srai rd rs1 shamt) := by
  intro c _; simp [encodeWord, classOf]
theorem srli (rd rs1 : RegIdx) (shamt : BitVec 5) (funct7 : BitVec 7) : Statement (.srli rd rs1 shamt funct7) := by
  intro c _; simp [encodeWord, classOf]
theorem lb (rd rs1 : RegIdx) (imm : BitVec 12) : Statement (.lb rd rs1 imm) := by
  intro c _; simp [encodeWord, classOf]
theorem lh (rd rs1 : RegIdx) (imm : BitVec 12) : Statement (.lh rd rs1 imm) := by
  intro c _; simp [encodeWord, classOf]
theorem lw (rd rs1 : RegIdx) (imm : BitVec 12) : Statement (.lw rd rs1 imm) := by
  intro c _; simp [encodeWord, classOf]
theorem lbu (rd rs1 : RegIdx) (imm : BitVec 12) : Statement (.lbu rd rs1 imm) := by
  intro c _; simp [encodeWord, classOf]
theorem lhu (rd rs1 : RegIdx) (imm : BitVec 12) : Statement (.lhu rd rs1 imm) := by
  intro c _; simp [encodeWord, classOf]
theorem loadInvalid011 (rd rs1 : RegIdx) (imm : BitVec 12) : Statement (.loadInvalid011 rd rs1 imm) := by
  intro c _; simp [encodeWord, classOf]
theorem loadInvalid110 (rd rs1 : RegIdx) (imm : BitVec 12) : Statement (.loadInvalid110 rd rs1 imm) := by
  intro c _; simp [encodeWord, classOf]
theorem loadInvalid111 (rd rs1 : RegIdx) (imm : BitVec 12) : Statement (.loadInvalid111 rd rs1 imm) := by
  intro c _; simp [encodeWord, classOf]
theorem sb (rs2 rs1 : RegIdx) (imm : BitVec 12) : Statement (.sb rs2 rs1 imm) := by
  intro c _; simp [encodeWord, classOf]
theorem sh (rs2 rs1 : RegIdx) (imm : BitVec 12) : Statement (.sh rs2 rs1 imm) := by
  intro c _; simp [encodeWord, classOf]
theorem sw (rs2 rs1 : RegIdx) (imm : BitVec 12) : Statement (.sw rs2 rs1 imm) := by
  intro c _; simp [encodeWord, classOf]
theorem storeInvalid011 (rs2 rs1 : RegIdx) (imm : BitVec 12) : Statement (.storeInvalid011 rs2 rs1 imm) := by
  intro c _; simp [encodeWord, classOf]
theorem storeInvalid100 (rs2 rs1 : RegIdx) (imm : BitVec 12) : Statement (.storeInvalid100 rs2 rs1 imm) := by
  intro c _; simp [encodeWord, classOf]
theorem storeInvalid101 (rs2 rs1 : RegIdx) (imm : BitVec 12) : Statement (.storeInvalid101 rs2 rs1 imm) := by
  intro c _; simp [encodeWord, classOf]
theorem storeInvalid110 (rs2 rs1 : RegIdx) (imm : BitVec 12) : Statement (.storeInvalid110 rs2 rs1 imm) := by
  intro c _; simp [encodeWord, classOf]
theorem storeInvalid111 (rs2 rs1 : RegIdx) (imm : BitVec 12) : Statement (.storeInvalid111 rs2 rs1 imm) := by
  intro c _; simp [encodeWord, classOf]
theorem fence (rd rs1 : RegIdx) (imm : BitVec 12) (funct3 : BitVec 3) : Statement (.fence rd rs1 imm funct3) := by
  intro c _; simp [encodeWord, classOf]
theorem sentinel (rd rs1 : RegIdx) : Statement (.sentinel rd rs1) := by
  intro c _; simp [encodeWord, classOf]
theorem ecall (rd rs1 : RegIdx) (imm : BitVec 12) : Statement (.ecall rd rs1 imm) := by
  intro c _; simp [encodeWord, classOf]
theorem systemNop (rd rs1 : RegIdx) (imm : BitVec 12) (funct3 : BitVec 3) : Statement (.systemNop rd rs1 imm funct3) := by
  intro c _; simp [encodeWord, classOf]
theorem decodeFailure (word : Word) : Statement (.decodeFailure word) := by
  intro c h
  simpa [Instr.wf, encodeWord, classOf] using h

end Sys2Proof.Laws.OpcodeClassOfWord
end

