-- ==== Sys2Proof/Tests/Slice0.lean ====
section
/-! SUPPORT. Checks of the model's own: ill-formed terms refused, words of every constructor decoded, one step on the vectors
of 95_test_vectors.md (its row names stand in the comments), and for each statement values that meet its hypotheses. -/

namespace Sys2Proof.Tests

open Sys2Proof.Machine

set_option Elab.async false -- one declaration after another: the sandbox limits threads

/-! ## Helpers -/

/-- The state of a vector: the pc, the word there, the registers that are not 0, and bytes in memory. -/
def vector (pc w : Word) (regs : List (RegIdx × Word) := []) (bytes : Nat × List Byte := (0x80000100, [])) : State :=
  let s := regs.foldl (fun s r => s.writeReg r.1 r.2) (State.reset.setPc pc)
  s.setMem ((s.mem.writeAll bytes.1 bytes.2).writeAll pc.toNat (leBytes 4 w))

/-- The memory of rows L-1 to L-11 and L-15 to L-18. -/
def loadBytes : Nat × List Byte := (0x80000100, [0x44, 0x33, 0x22, 0x11, 0x80, 0xFE, 0xFF, 0x7F])

/-- The step of `s` completes in exactly `t`. -/
def gives (s t : State) : Bool := match step s with | .next u => u == t | _ => false

/-- The step of `s` writes one register and the pc. -/
def setsReg (s : State) (rd : RegIdx) (v pc : Word) : Bool := gives s { s with regs := s.regs.set rd.toNat v rd.isLt, pc := pc }

/-- The step of `s` writes the pc only. -/
def setsPc (s : State) (pc : Word) : Bool := gives s { s with pc := pc }

/-- The step of `s` stores bytes and advances the pc. -/
def setsMem (s : State) (a : Nat) (bytes : List Byte) : Bool :=
  gives s { s with mem := s.mem.writeAll a bytes, pc := s.pc + 4#32 }

/-- The step of `s` emits one event and advances the pc. -/
def emits (s : State) (r : Word) : Bool := gives s { s with reports := [r], pc := s.pc + 4#32 }

/-- The step of `s` stops. -/
def stops (s : State) : Bool := gives s { s with signal := .stop } && (hostStep s).2 == .stop

/-- The step of `s` raises `f`, and leaves `s` with the latch set. -/
def faults (s : State) (f : Fault) : Bool := hostStep s == ({ s with status := .faulted f }, .fault f)

/-- `s` is Ready and fetches `w`: the hypotheses of the statements about fetched words. -/
abbrev Runs (s : State) (w : Word) : Prop := s.status = .ready ∧ fetch Config.reference s = .ok w

/-- The step of `s` answers a next state. -/
def completes (s : State) : Bool := match step s with | .next _ => true | _ => false

/-! ## WellFormed: an ill-formed term for each check -/

theorem test_wf_odd_offsets : [Instr.jal 1#5 9#21, .beq 1#5 2#5 9#13, .bne 1#5 2#5 9#13, .blt 1#5 2#5 9#13,
    .bge 1#5 2#5 9#13, .bltu 1#5 2#5 9#13, .bgeu 1#5 2#5 9#13, .branchInvalid010 1#5 2#5 9#13,
    .branchInvalid011 1#5 2#5 9#13].all (fun i => !i.wf Config.reference) = true := by decide
theorem test_wf_even_offsets : [Instr.jal 1#5 8#21, .beq 1#5 2#5 8#13, .branchInvalid011 1#5 2#5 8#13].all
    (fun i => i.wf Config.reference) = true := by decide
theorem test_wf_alternate_form : [Instr.add 3#5 1#5 2#5 0b0100000#7, .srl 3#5 1#5 2#5 0b0100000#7,
    .srli 3#5 1#5 4#5 0b0100000#7].all (fun i => !i.wf Config.reference) = true := by decide
theorem test_wf_normal_form : [Instr.add 3#5 1#5 2#5 0b0000001#7, .srl 3#5 1#5 2#5 0b1111111#7,
    .slli 3#5 1#5 4#5 0b0100000#7].all (fun i => i.wf Config.reference) = true := by decide
theorem test_wf_system : [Instr.systemNop 0#5 0#5 0x302#12 0b000#3, .systemNop 0#5 0#5 0xC00#12 0b001#3].all
    (fun i => !i.wf Config.reference) = true := by decide
theorem test_wf_ecall_exact :
    Instr.wf { Config.reference with ecallMatch := .exact } (.ecall 0#5 0#5 1#12) = false ∧
      Instr.wf { Config.reference with ecallMatch := .exact } (.ecall 0#5 0#5 0#12) = true ∧
      Instr.wf { Config.reference with sentinelFunct3 := 0#3 } (.ecall 0#5 0#5 0xC00#12) = false := by decide
theorem test_wf_decode_failure : Instr.wf Config.reference (.decodeFailure 0x00000013#32) = false ∧
    Instr.wf Config.reference (.decodeFailure 0x0000000B#32) = true := by decide

/-! ## Decode: a word of every constructor, written out from the encodings of 30_encoding.md R61 to R76 -/

theorem test_decode_upper :
    decodeTableWord 32 0x123452B7 = some (.lui 5#5 0x12345#20) ∧
    decodeTableWord 32 0x00001317 = some (.auipc 6#5 1#20) := by decide
theorem test_decode_jumps :
    decodeTableWord 32 0x7FF7F0EF = some (.jal 1#5 524286#21) ∧
    decodeTableWord 32 0x800000EF = some (.jal 1#5 (BitVec.ofInt 21 (-1048576))) ∧
    decodeTableWord 32 0x0000D167 = some (.jalr 2#5 1#5 0#12 0b101#3) ∧
    decodeTableWord 32 0xFFF08167 = some (.jalr 2#5 1#5 (BitVec.ofInt 12 (-1)) 0b000#3) := by decide
theorem test_decode_branches :
    decodeTableWord 32 0x7E000FE3 = some (.beq 0#5 0#5 4094#13) ∧
    decodeTableWord 32 0x80000063 = some (.beq 0#5 0#5 (BitVec.ofInt 13 (-4096))) ∧
    decodeTableWord 32 0xFE209CE3 = some (.bne 1#5 2#5 (BitVec.ofInt 13 (-8))) ∧
    decodeTableWord 32 0x0020C463 = some (.blt 1#5 2#5 8#13) ∧
    decodeTableWord 32 0x0020D463 = some (.bge 1#5 2#5 8#13) ∧
    decodeTableWord 32 0x0020E463 = some (.bltu 1#5 2#5 8#13) ∧
    decodeTableWord 32 0x0020F463 = some (.bgeu 1#5 2#5 8#13) ∧
    decodeTableWord 32 0x0020A463 = some (.branchInvalid010 1#5 2#5 8#13) ∧
    decodeTableWord 32 0x0020B463 = some (.branchInvalid011 1#5 2#5 8#13) := by decide
theorem test_decode_register_alu :
    decodeTableWord 32 0x402081B3 = some (.sub 3#5 1#5 2#5) ∧
    decodeTableWord 32 0x022081B3 = some (.add 3#5 1#5 2#5 1#7) ∧
    decodeTableWord 32 0x002091B3 = some (.sll 3#5 1#5 2#5 0#7) ∧
    decodeTableWord 32 0x0020A1B3 = some (.slt 3#5 1#5 2#5 0#7) ∧
    decodeTableWord 32 0x0020B1B3 = some (.sltu 3#5 1#5 2#5 0#7) ∧
    decodeTableWord 32 0x4020C1B3 = some (.xor 3#5 1#5 2#5 0b0100000#7) ∧
    decodeTableWord 32 0x4020D1B3 = some (.sra 3#5 1#5 2#5) ∧
    decodeTableWord 32 0x0020D1B3 = some (.srl 3#5 1#5 2#5 0#7) ∧
    decodeTableWord 32 0x0020E1B3 = some (.or 3#5 1#5 2#5 0#7) ∧
    decodeTableWord 32 0x0020F1B3 = some (.and 3#5 1#5 2#5 0#7) := by decide
theorem test_decode_immediate_alu :
    decodeTableWord 32 0x80008193 = some (.addi 3#5 1#5 (BitVec.ofInt 12 (-2048))) ∧
    decodeTableWord 32 0xFFF0A193 = some (.slti 3#5 1#5 (BitVec.ofInt 12 (-1))) ∧
    decodeTableWord 32 0x0010B193 = some (.sltiu 3#5 1#5 1#12) ∧
    decodeTableWord 32 0xFFF0C193 = some (.xori 3#5 1#5 (BitVec.ofInt 12 (-1))) ∧
    decodeTableWord 32 0xF000E193 = some (.ori 3#5 1#5 (BitVec.ofInt 12 (-256))) ∧
    decodeTableWord 32 0x0FF0F193 = some (.andi 3#5 1#5 255#12) ∧
    decodeTableWord 32 0x40409193 = some (.slli 3#5 1#5 4#5 0b0100000#7) ∧
    decodeTableWord 32 0x41F0D193 = some (.srai 3#5 1#5 31#5) ∧
    decodeTableWord 32 0x0240D193 = some (.srli 3#5 1#5 4#5 1#7) := by decide
theorem test_decode_loads :
    decodeTableWord 32 0x00408203 = some (.lb 4#5 1#5 4#12) ∧
    decodeTableWord 32 0x00509203 = some (.lh 4#5 1#5 5#12) ∧
    decodeTableWord 32 0xFFC0A203 = some (.lw 4#5 1#5 (BitVec.ofInt 12 (-4))) ∧
    decodeTableWord 32 0x0040C203 = some (.lbu 4#5 1#5 4#12) ∧
    decodeTableWord 32 0x0050D203 = some (.lhu 4#5 1#5 5#12) ∧
    decodeTableWord 32 0x0000B203 = some (.loadInvalid011 4#5 1#5 0#12) ∧
    decodeTableWord 32 0x0000E203 = some (.loadInvalid110 4#5 1#5 0#12) ∧
    decodeTableWord 32 0x0000F203 = some (.loadInvalid111 4#5 1#5 0#12) := by decide
theorem test_decode_stores :
    decodeTableWord 32 0xFE208FA3 = some (.sb 2#5 1#5 (BitVec.ofInt 12 (-1))) ∧
    decodeTableWord 32 0x00209023 = some (.sh 2#5 1#5 0#12) ∧
    decodeTableWord 32 0xFE20AE23 = some (.sw 2#5 1#5 (BitVec.ofInt 12 (-4))) ∧
    decodeTableWord 32 0x0020B0A3 = some (.storeInvalid011 2#5 1#5 1#12) ∧
    decodeTableWord 32 0x0020C0A3 = some (.storeInvalid100 2#5 1#5 1#12) ∧
    decodeTableWord 32 0x0020D0A3 = some (.storeInvalid101 2#5 1#5 1#12) ∧
    decodeTableWord 32 0x0020E0A3 = some (.storeInvalid110 2#5 1#5 1#12) ∧
    decodeTableWord 32 0x0020F0A3 = some (.storeInvalid111 2#5 1#5 1#12) := by decide
theorem test_decode_system :
    decodeTableWord 32 0x0FF0000F = some (.fence 0#5 0#5 0x0FF#12 0b000#3) ∧
    decodeTableWord 32 0xC0001573 = some (.sentinel 10#5 0#5) ∧
    decodeTableWord 32 0x30200073 = some (.ecall 0#5 0#5 0x302#12) ∧
    decodeTableWord 32 0xC000D073 = some (.systemNop 0#5 1#5 0xC00#12 0b101#3) ∧
    decodeTableWord 32 0xF1402573 = some (.systemNop 10#5 0#5 0xF14#12 0b010#3) ∧
    decodeTableWord 32 0x00000057 = some (.decodeFailure 0x57#32) := by decide
/-- The two readings of the environment call's test (Y-9; 92_eei_decisions.md D5). -/
theorem test_decode_ecall_match :
    decodeWord { Config.reference with ecallMatch := .exact } 0x00100073#32 = .systemNop 0#5 0#5 1#12 0b000#3 ∧
    decodeWord Config.reference 0x00100073#32 = .ecall 0#5 0#5 1#12 := by decide
theorem test_decode_truncated : decode [0x13, 0x00, 0x00] = .error .truncated := by decide
/-- Rows of 95_test_vectors.md section 2.1: the immediates of two words. -/
theorem test_immediates : (decodeRecord 0xFE209CE3#32).map (fun d => [d.immI, d.immS, d.immB, d.immU, d.immJ].map BitVec.toInt) =
      some [-30, -7, -8, (0xFE209000#32).toInt, -1009694] ∧
    (decodeRecord 0xFE20AE23#32).map (fun d => [d.immI, d.immS, d.immB, d.immU, d.immJ].map BitVec.toInt) =
      some [-30, -4, -2052, (0xFE20A000#32).toInt, -1005598] := by decide

/-! ## One step on the vectors -/

/-- U-1, U-3 -/
theorem test_lui : (setsReg (vector 0x80000000#32 0x123452B7#32) 5#5 0x12345000#32 0x80000004#32 &&
    setsPc (vector 0x80000000#32 0x12345037#32) 0x80000004#32) = true := by decide
/-- U-5, U-6 -/
theorem test_auipc : (setsReg (vector 0x80000000#32 0x80000317#32) 6#5 0#32 0x80000004#32 &&
    setsReg (vector 0x80000020#32 0x00000317#32) 6#5 0x80000020#32 0x80000024#32) = true := by decide
/-- J-4, J-2 -/
theorem test_jal : (setsReg (vector 0x80000000#32 0x7FF7F0EF#32) 1#5 0x80000004#32 0x8007FFFE#32 &&
    setsPc (vector 0x80000010#32 0xFFDFF06F#32) 0x8000000C#32) = true := by decide
/-- J-6, J-8 -/
theorem test_jalr :
    (setsReg (vector 0x80000010#32 0x004282E7#32 [(5#5, 0x80000100#32)]) 5#5 0x80000014#32 0x80000104#32 &&
    setsPc (vector 0x80000000#32 0x00108067#32 [(1#5, 0x80000008#32)]) 0x80000009#32) = true := by decide
/-- B-1, B-2 -/
theorem test_beq : (setsPc (vector 0x80000000#32 0x00208463#32 [(1#5, 7#32), (2#5, 7#32)]) 0x80000008#32 &&
    setsPc (vector 0x80000000#32 0x00208463#32 [(1#5, 7#32), (2#5, 8#32)]) 0x80000004#32) = true := by decide
/-- B-4, B-5 -/
theorem test_bne : (setsPc (vector 0x80000000#32 0x00209463#32 [(1#5, 3#32), (2#5, 3#32)]) 0x80000004#32 &&
    setsPc (vector 0x80000010#32 0xFE209CE3#32 [(1#5, 1#32), (2#5, 2#32)]) 0x80000008#32) = true := by decide
/-- B-7, B-8 -/
theorem test_blt : (setsPc (vector 0x80000000#32 0x0020C463#32 [(2#5, 0xFFFFFFFF#32)]) 0x80000004#32 &&
    setsPc (vector 0x80000000#32 0x0020C463#32 [(1#5, 0x80000000#32), (2#5, 0x7FFFFFFF#32)]) 0x80000008#32) = true := by
  decide
/-- B-9, B-10 -/
theorem test_bge : (setsPc (vector 0x80000000#32 0x0020D463#32 [(1#5, 5#32), (2#5, 5#32)]) 0x80000008#32 &&
    setsPc (vector 0x80000000#32 0x0020D463#32 [(1#5, 0xFFFFFFFF#32)]) 0x80000004#32) = true := by decide
/-- B-11, B-12 -/
theorem test_bltu : (setsPc (vector 0x80000000#32 0x0020E463#32 [(1#5, 0xFFFFFFFF#32)]) 0x80000004#32 &&
    setsPc (vector 0x80000000#32 0x0020E463#32 [(2#5, 0xFFFFFFFF#32)]) 0x80000008#32) = true := by decide
/-- B-13, B-14 -/
theorem test_bgeu : (setsPc (vector 0x80000000#32 0x0020F463#32 [(1#5, 0xFFFFFFFF#32)]) 0x80000008#32 &&
    setsPc (vector 0x80000000#32 0x0020F463#32) 0x80000008#32) = true := by decide
/-- B-17, B-18 -/
theorem test_branch_invalid :
    (faults (vector 0x80000000#32 0x0020A463#32 [(1#5, 1#32), (2#5, 1#32)]) (.invalidOperation 0b010#3) &&
    faults (vector 0x80000000#32 0x0020B463#32 [(1#5, 1#32), (2#5, 2#32)]) (.invalidOperation 0b011#3)) = true := by decide
/-- A-4, A-5 -/
theorem test_sub : (setsReg (vector 0x80000000#32 0x402081B3#32 [(2#5, 1#32)]) 3#5 0xFFFFFFFF#32 0x80000004#32 &&
    setsReg (vector 0x80000000#32 0x402081B3#32 [(1#5, 0x80000000#32), (2#5, 1#32)]) 3#5 0x7FFFFFFF#32 0x80000004#32) =
      true := by decide
/-- A-3, A-24 -/
theorem test_add :
    (setsReg (vector 0x80000000#32 0x022081B3#32 [(1#5, 6#32), (2#5, 7#32)]) 3#5 13#32 0x80000004#32 &&
    setsReg (vector 0x80000000#32 0x001080B3#32 [(1#5, 0x40000000#32)]) 1#5 0x80000000#32 0x80000004#32) = true := by decide
/-- A-7, A-8 -/
theorem test_sll : (setsReg (vector 0x80000000#32 0x002091B3#32 [(1#5, 1#32), (2#5, 32#32)]) 3#5 1#32 0x80000004#32 &&
    setsReg (vector 0x80000000#32 0x002091B3#32 [(1#5, 1#32), (2#5, 0xFFFFFFFF#32)]) 3#5 0x80000000#32 0x80000004#32) =
      true := by decide
/-- A-9, A-10 -/
theorem test_slt :
    (setsReg (vector 0x80000000#32 0x0020A1B3#32 [(1#5, 0xFFFFFFFF#32), (2#5, 1#32)]) 3#5 1#32 0x80000004#32 &&
    setsReg (vector 0x80000000#32 0x0020A1B3#32 [(1#5, 5#32), (2#5, 5#32)]) 3#5 0#32 0x80000004#32) = true := by decide
/-- A-11, A-12 -/
theorem test_sltu :
    (setsReg (vector 0x80000000#32 0x0020B1B3#32 [(1#5, 0xFFFFFFFF#32), (2#5, 1#32)]) 3#5 0#32 0x80000004#32 &&
    setsReg (vector 0x80000000#32 0x0020B1B3#32 [(2#5, 1#32)]) 3#5 1#32 0x80000004#32) = true := by decide
/-- A-13, A-14 -/
theorem test_xor : (setsReg (vector 0x80000000#32 0x0020C1B3#32 [(1#5, 0xFF00FF00#32), (2#5, 0x0FF00FF0#32)]) 3#5
      0xF0F0F0F0#32 0x80000004#32 &&
    setsReg (vector 0x80000000#32 0x4020C1B3#32 [(1#5, 0xF0#32), (2#5, 0x0F#32)]) 3#5 0xFF#32 0x80000004#32) = true := by
  decide
/-- A-18, A-19 -/
theorem test_sra :
    (setsReg (vector 0x80000000#32 0x4020D1B3#32 [(1#5, 0x80000000#32), (2#5, 31#32)]) 3#5 0xFFFFFFFF#32 0x80000004#32 &&
    setsReg (vector 0x80000000#32 0x4020D1B3#32 [(1#5, 0x80000000#32), (2#5, 33#32)]) 3#5 0xC0000000#32 0x80000004#32) =
      true := by decide
/-- A-15, A-16 -/
theorem test_srl :
    (setsReg (vector 0x80000000#32 0x0020D1B3#32 [(1#5, 0x80000000#32), (2#5, 1#32)]) 3#5 0x40000000#32 0x80000004#32 &&
    setsReg (vector 0x80000000#32 0x0020D1B3#32 [(1#5, 0x80000000#32)]) 3#5 0x80000000#32 0x80000004#32) = true := by decide
/-- A-21 -/
theorem test_or : setsReg (vector 0x80000000#32 0x0020E1B3#32 [(1#5, 0xF0#32), (2#5, 0x0F#32)]) 3#5 0xFF#32 0x80000004#32 =
    true := by decide
/-- A-22 -/
theorem test_and : setsReg (vector 0x80000000#32 0x0020F1B3#32 [(1#5, 0xF0#32), (2#5, 0x3C#32)]) 3#5 0x30#32 0x80000004#32 =
    true := by decide
/-- I-3, I-4 -/
theorem test_addi : (setsReg (vector 0x80000000#32 0x40008193#32) 3#5 0x400#32 0x80000004#32 &&
    setsReg (vector 0x80000000#32 0x80008193#32) 3#5 0xFFFFF800#32 0x80000004#32) = true := by decide
/-- I-7, I-8 -/
theorem test_slti : (setsReg (vector 0x80000000#32 0xFFF0A193#32 [(1#5, 0xFFFFFFFE#32)]) 3#5 1#32 0x80000004#32 &&
    setsReg (vector 0x80000000#32 0xFFF0A193#32) 3#5 0#32 0x80000004#32) = true := by decide
/-- I-9, I-10 -/
theorem test_sltiu : (setsReg (vector 0x80000000#32 0xFFF0B193#32 [(1#5, 5#32)]) 3#5 1#32 0x80000004#32 &&
    setsReg (vector 0x80000000#32 0xFFF0B193#32 [(1#5, 0xFFFFFFFF#32)]) 3#5 0#32 0x80000004#32) = true := by decide
/-- I-12 -/
theorem test_xori : setsReg (vector 0x80000000#32 0xFFF0C193#32 [(1#5, 0xFF#32)]) 3#5 0xFFFFFF00#32 0x80000004#32 = true := by
  decide
/-- I-13 -/
theorem test_ori : setsReg (vector 0x80000000#32 0xF000E193#32 [(1#5, 0x0F#32)]) 3#5 0xFFFFFF0F#32 0x80000004#32 = true := by
  decide
/-- I-14 -/
theorem test_andi : setsReg (vector 0x80000000#32 0x0FF0F193#32 [(1#5, 0x12345678#32)]) 3#5 0x78#32 0x80000004#32 = true := by
  decide
/-- I-15, I-16 -/
theorem test_slli :
    (setsReg (vector 0x80000000#32 0x00409193#32 [(1#5, 0x12345678#32)]) 3#5 0x23456780#32 0x80000004#32 &&
    setsReg (vector 0x80000000#32 0x40409193#32 [(1#5, 1#32)]) 3#5 0x10#32 0x80000004#32) = true := by decide
/-- I-20, I-21 -/
theorem test_srai :
    (setsReg (vector 0x80000000#32 0x4000D193#32 [(1#5, 0x80000000#32)]) 3#5 0x80000000#32 0x80000004#32 &&
    setsReg (vector 0x80000000#32 0x41F0D193#32 [(1#5, 0x80000000#32)]) 3#5 0xFFFFFFFF#32 0x80000004#32) = true := by decide
/-- I-17, I-18 -/
theorem test_srli :
    (setsReg (vector 0x80000000#32 0x0040D193#32 [(1#5, 0x80000000#32)]) 3#5 0x08000000#32 0x80000004#32 &&
    setsReg (vector 0x80000000#32 0x0240D193#32 [(1#5, 0x80000000#32)]) 3#5 0x08000000#32 0x80000004#32) = true := by decide
/-- L-1, L-2 -/
theorem test_lb :
    (setsReg (vector 0x80000000#32 0x00008203#32 [(1#5, 0x80000100#32)] loadBytes) 4#5 0x44#32 0x80000004#32 &&
    setsReg (vector 0x80000000#32 0x00408203#32 [(1#5, 0x80000100#32)] loadBytes) 4#5 0xFFFFFF80#32 0x80000004#32) = true := by
  decide
/-- L-4 -/
theorem test_lh :
    setsReg (vector 0x80000000#32 0x00509203#32 [(1#5, 0x80000100#32)] loadBytes) 4#5 0xFFFFFFFE#32 0x80000004#32 = true := by
  decide
/-- L-7, L-10 -/
theorem test_lw :
    (setsReg (vector 0x80000000#32 0x0020A203#32 [(1#5, 0x80000100#32)] loadBytes) 4#5 0xFE801122#32 0x80000004#32 &&
    setsReg (vector 0x80000000#32 0x0000A083#32 [(1#5, 0x80000100#32)] loadBytes) 1#5 0x11223344#32 0x80000004#32) = true := by
  decide
/-- L-3, L-15 -/
theorem test_lbu :
    (setsReg (vector 0x80000000#32 0x0040C203#32 [(1#5, 0x80000100#32)] loadBytes) 4#5 0x80#32 0x80000004#32 &&
    faults (vector 0x80000000#32 0xFFF0C203#32 [(1#5, 0x80004000#32)]) (.outOfBounds 0x80003FFF 4)) = true := by decide
/-- L-5, L-18 (of LW) -/
theorem test_lhu :
    (setsReg (vector 0x80000000#32 0x0050D203#32 [(1#5, 0x80000100#32)] loadBytes) 4#5 0xFFFE#32 0x80000004#32 &&
    faults (vector 0x80000000#32 0x1000A203#32 [(1#5, 0xFFFFFFFF#32)]) (.outOfBounds 0xFF 4)) = true := by decide
/-- L-11, L-12, and the other two widths -/
theorem test_load_invalid :
    (faults (vector 0x80000000#32 0x0000B203#32 [(1#5, 0x80000100#32)] loadBytes) (.decodeFailure 0x0000B203#32) &&
    faults (vector 0x80000000#32 0x0000B203#32) (.decodeFailure 0x0000B203#32) &&
    faults (vector 0x80000000#32 0x0000E203#32) (.decodeFailure 0x0000E203#32) &&
    faults (vector 0x80000000#32 0x0000F203#32) (.decodeFailure 0x0000F203#32)) = true := by decide
/-- S-1, S-5 -/
theorem test_sb :
    (setsMem (vector 0x80000000#32 0x00208023#32 [(1#5, 0x80000200#32), (2#5, 0x11223344#32)]) 0x80000200 [0x44] &&
    setsMem (vector 0x80000000#32 0xFE208FA3#32 [(1#5, 0x80004000#32), (2#5, 0xAB#32)]) 0x80003FFF [0xAB]) = true := by decide
/-- S-2 -/
theorem test_sh :
    setsMem (vector 0x80000000#32 0x00209023#32 [(1#5, 0x80000200#32), (2#5, 0x11223344#32)]) 0x80000200 [0x44, 0x33] =
      true := by decide
/-- S-4, S-6 -/
theorem test_sw :
    (setsMem (vector 0x80000000#32 0x0020A0A3#32 [(1#5, 0x80000200#32), (2#5, 0x11223344#32)]) 0x80000201
      [0x44, 0x33, 0x22, 0x11] &&
    faults (vector 0x80000000#32 0xFE20AF23#32 [(1#5, 0x80004000#32), (2#5, 1#32)]) (.outOfBounds 0x80003FFE 4)) = true := by
  decide
/-- S-8: zeros stored over bytes leave the canonical form -/
theorem test_sw_zero :
    (match step (vector 0x80000000#32 0x0000A023#32 [(1#5, 0x80000200#32)] (0x80000200, [1, 2, 3, 4])) with
      | .next t => t.mem == (vector 0x80000000#32 0x0000A023#32).mem | _ => false) = true := by decide
/-- S-7, and the other four widths -/
theorem test_store_invalid : [0x0020B023#32, 0x0020C023#32, 0x0020D023#32, 0x0020E023#32, 0x0020F023#32].all
    (fun w => faults (vector 0x80000000#32 w [(1#5, 0x80000200#32), (2#5, 1#32)]) (.decodeFailure w)) = true := by decide
/-- Y-12, Y-13 -/
theorem test_fence : (setsPc (vector 0x80000000#32 0x0FF0000F#32) 0x80000004#32 &&
    setsPc (vector 0x80000000#32 0x0000100F#32) 0x80000004#32) = true := by decide
/-- Y-1, Y-2 -/
theorem test_sentinel : (stops (vector 0x80000000#32 0xC0001073#32) && stops (vector 0x80000000#32 0xC0001573#32 [(10#5, 5#32)])) =
    true := by decide
/-- Y-6, Y-8 -/
theorem test_ecall : (emits (vector 0x80000000#32 0x00000073#32 [(3#5, 1#32)]) 1#32 &&
    faults (vector 0x80000000#32 0x00000073#32 [(3#5, 0xFFFFFFFF#32)]) (.guestTestFailure 0xFFFFFFFF#32)) = true := by decide
/-- Y-9, Y-10 -/
theorem test_ecall_other_words : (emits (vector 0x80000000#32 0x00100073#32) 0#32 &&
    faults (vector 0x80000000#32 0x30200073#32 [(3#5, 5#32)]) (.guestTestFailure 5#32)) = true := by decide
/-- Y-3, Y-11 -/
theorem test_system_nop : (setsPc (vector 0x80000000#32 0xC000D073#32) 0x80000004#32 &&
    setsPc (vector 0x80000000#32 0xF1402573#32 [(10#5, 7#32)]) 0x80000004#32) = true := by decide
/-- D-1, D-4 -/
theorem test_decode_failure : (faults (vector 0x80000000#32 0x00000000#32) (.decodeFailure 0#32) &&
    faults (vector 0x80000000#32 0x00000001#32) (.decodeFailure 1#32)) = true := by decide
/-- F-1, F-5 -/
theorem test_fetch : (setsPc (vector 0x80003FFC#32 0x00000013#32) 0x80004000#32 &&
    setsPc (vector 0x80000002#32 0x00000013#32) 0x80000006#32) = true := by decide
/-- F-2, F-3 -/
theorem test_fetch_out_of_bounds : (faults (State.reset.setPc 0x80004000#32) (.outOfBounds 0x80004000 4) &&
    faults (State.reset.setPc 0x80003FFE#32) (.outOfBounds 0x80003FFE 4)) = true := by decide
/-- H-2, H-3 -/
theorem test_latch : (faults State.reset (.outOfBounds 0 4) &&
    faults (setPC 0x80000000 (hostStep State.reset).1) (.outOfBounds 0 4)) = true := by decide
/-- H-5, H-6, H-7 -/
theorem test_host_writes : hostCall (.writeBytes 0x80003FFE [1, 2, 3]) State.reset =
      (State.reset.latchFault (.outOfBounds 0x80003FFE 3), .failed (.outOfBounds 0x80003FFE 3)) ∧
    hostCall (.writeBytes 0x80004000 []) State.reset = (State.reset, .done) ∧
    hostCall (.writeBytes 0x80004001 []) State.reset =
      (State.reset.latchFault (.outOfBounds 0x80004001 0), .failed (.outOfBounds 0x80004001 0)) := by decide
/-- H-8, H-9 -/
theorem test_host_pc_and_dump : (setPC 0x180000000 State.reset).pc = 0x80000000#32 ∧
    (dump ((State.reset.writeReg 5#5 9#32).setPc 0x80000040#32)).1[5]? = some ("t0", 9#32) ∧
    (dump ((State.reset.writeReg 5#5 9#32).setPc 0x80000040#32)).2 = 0x80000040#32 := by decide
/-- The row's word runs as the first instruction after reset. -/
theorem test_first_instruction_after_reset :
    (setsReg (State.reset.withFetchWord 32 0x00500093) 1#5 5#32 0x80000004#32 && stops (State.reset.withFetchWord 32 0xC0001073)) =
      true := by decide
/-- The spec's pseudocode gives the same step (A-17, L-4, S-4). -/
theorem test_pseudocode : [vector 0x80000000#32 0x4020D1B3#32 [(1#5, 0x80000000#32), (2#5, 1#32)],
    vector 0x80000000#32 0x00509203#32 [(1#5, 0x80000100#32)] loadBytes,
    vector 0x80000000#32 0x0020A0A3#32 [(1#5, 0x80000200#32), (2#5, 0x11223344#32)]].all
      (fun s => match pseudoStep Config.reference s with | .next t => gives s t | _ => false) = true := by decide

/-! ## For each statement with hypotheses, values that meet them, one for each clause and at the ends of its range -/

theorem witness_DecodeOfEncodeIsTheInstruction :
    (Instr.jal 1#5 (BitVec.ofInt 21 (-1048576))).wf Config.reference = true ∧
    (Instr.ecall 31#5 31#5 0xFFF#12).wf Config.reference = true ∧
    (Instr.add 3#5 1#5 2#5 0b0100001#7).wf Config.reference = true ∧
    (Instr.decodeFailure 0xFFFFFFFF#32).wf Config.reference = true := by decide
theorem witness_OpcodesOutsideTheElevenFail :
    Runs (vector 0x80003FFC#32 0xFFFFFFFF#32) 0xFFFFFFFF#32 ∧ opcodeOf 0xFFFFFFFF#32 = 0b1111111#7 ∧
    (0x00000001#32).extractLsb' 0 2 ≠ 0b11#2 := by decide
theorem witness_IllegalEncodingsAreExactlyThese :
    Runs (vector 0x80000000#32 0x0000B203#32) 0x0000B203#32 ∧ funct3Of 0x0000B203#32 = 0b011#3 ∧
    Runs (vector 0x80000000#32 0x0020F023#32) 0x0020F023#32 ∧ funct3Of 0x0020F023#32 = 0b111#3 ∧
    Runs (vector 0x80000000#32 0x0020A463#32) 0x0020A463#32 ∧ funct3Of 0x0020A463#32 = 0b010#3 ∧
    Runs (vector 0x80000000#32 0x0000D203#32) 0x0000D203#32 ∧ funct3Of 0x0000D203#32 = 0b101#3 ∧
    lookupClass (opcodeOf 0x0000D203#32) = some .load := by decide
/-- The three ways a legal word runs: a next state, a load outside the window, an environment call of x3 = 2. -/
theorem witness_LegalWordsRun : completes (vector 0x80000000#32 0x0FF0000F#32) = true ∧
    faults (vector 0x80000000#32 0x0000D203#32) (.outOfBounds 0 4) = true ∧
    faults (vector 0x80000000#32 0x00000073#32 [(3#5, 2#32)]) (.guestTestFailure 2#32) = true ∧
    lookupClass (opcodeOf 0x00000073#32) = some .system ∧ isEcall Config.reference 0x00000073#32 = true := by decide
theorem witness_ReadWordIsLittleEndian :
    inBounds Config.reference 0x80000000 4 = true ∧ inBounds Config.reference 0x80003FFC 4 = true ∧
    inBounds Config.reference 0x7FFFFFFF 4 = false ∧ inBounds Config.reference 0x80003FFD 4 = false := by decide
theorem witness_WriteBytesStoresExactlyItsBytes : Memory.wf [(0x80000000, 1#8)] = true ∧
    inBounds Config.reference 0x80003FFD 3 = true ∧ inBounds Config.reference 0x80004000 0 = true ∧
    inBounds Config.reference 0x80003FFE 3 = false ∧ inBounds Config.reference 0x80004001 0 = false := by decide
theorem witness_NarrowReadsAreCheckedOverFourBytes :
    Config.reference.memBase + Config.reference.memSize < (0x80003FFD#32).toNat + 4 := by decide
theorem witness_StoredWordReadsBack :
    Memory.wf [(0x80000000, 1#8), (0x80003FFF, 2#8)] = true ∧ inBounds Config.reference (0x80003FFC#32).toNat 4 = true := by
  decide
theorem witness_EqualMemoriesAreEqualData :
    Memory.wf ((Memory.write [] 0x80000001 2#8).write 0x80000000 1#8) = true ∧
    Memory.wf ((Memory.write [] 0x80000000 1#8).write 0x80000001 2#8) = true ∧
    ∀ a, ((Memory.write [] 0x80000001 2#8).write 0x80000000 1#8).read a =
      ((Memory.write [] 0x80000000 1#8).write 0x80000001 2#8).read a := by
  refine ⟨by decide, by decide, fun a => rfl⟩
theorem witness_AluComputesItsEightSelectors : 31 < 32 ∧ 31 + (0x00000020#32).toNat % 32 < 32 ∧
    ¬31 + (0x00000021#32).toNat % 32 < 32 := by decide
theorem witness_BranchUnitDecidesItsPredicates :
    (0b111#3 ≠ 0b010#3 ∧ 0b111#3 ≠ 0b011#3) ∧ (0b010#3 = 0b010#3 ∨ 0b010#3 = 0b011#3) := by decide
theorem witness_LoadsComplete :
    inBounds Config.reference (effectiveAddress (vector 0x80000000#32 0#32 [(1#5, 0x80004000#32)]) 1#5 0xFFC#12).toNat 4 =
      true ∧
    inBounds Config.reference (effectiveAddress (vector 0x80000000#32 0#32 [(1#5, 0x80000000#32)]) 1#5 0#12).toNat 4 = true := by
  decide
theorem witness_StoresComplete : (vector 0x80000000#32 0#32 [(1#5, 0x80004000#32)]).mem.wf = true ∧
    inBounds Config.reference (effectiveAddress (vector 0x80000000#32 0#32 [(1#5, 0x80004000#32)]) 1#5 0xFFF#12).toNat 1 =
      true ∧
    inBounds Config.reference (effectiveAddress (vector 0x80000000#32 0#32 [(1#5, 0x80004000#32)]) 1#5 0xFFE#12).toNat 2 =
      true ∧
    inBounds Config.reference (effectiveAddress (vector 0x80000000#32 0#32 [(1#5, 0x80004000#32)]) 1#5 0xFFC#12).toNat 4 =
      true := by decide
theorem witness_AccessesOutsideTheWindowFault :
    inBounds Config.reference (effectiveAddress (vector 0x80000000#32 0#32 [(1#5, 0x80004000#32)]) 1#5 0xFFD#12).toNat 4 =
      false ∧
    inBounds Config.reference (effectiveAddress (vector 0x80000000#32 0#32 [(1#5, 0x80004000#32)]) 1#5 0#12).toNat 1 = false ∧
    inBounds Config.reference (effectiveAddress (vector 0x80000000#32 0#32 [(1#5, 0x80004000#32)]) 1#5 0xFFF#12).toNat 2 =
      false := by decide
theorem witness_SentinelStopsAndStopsAgain : Runs (vector 0x80003FFC#32 0xC0001573#32) 0xC0001573#32 ∧
    decodeWord Config.reference 0xC0001573#32 = .sentinel 10#5 0#5 := by decide
theorem witness_EnvironmentCallReportsOrFails :
    ((vector 0x80000000#32 0x73#32 [(3#5, 1#32)]).readReg 3#5).toNat ≤ 1 ∧
    ((vector 0x80000000#32 0x73#32).readReg 3#5).toNat ≤ 1 ∧
    1 < ((vector 0x80000000#32 0x73#32 [(3#5, 2#32)]).readReg 3#5).toNat := by decide
theorem witness_UpperImmediateWordsRun :
    Runs (vector 0x80000000#32 0xFFFFF2B7#32) 0xFFFFF2B7#32 ∧ opcodeOf 0xFFFFF2B7#32 = 0b0110111#7 ∧
    Runs (vector 0x80000000#32 0x80000317#32) 0x80000317#32 ∧ opcodeOf 0x80000317#32 = 0b0010111#7 := by decide
theorem witness_JalWordsRun :
    Runs (vector 0x80000000#32 0x800000EF#32) 0x800000EF#32 ∧ opcodeOf 0x800000EF#32 = 0b1101111#7 := by decide
theorem witness_JalrWordsRun :
    Runs (vector 0x80000000#32 0x0000D167#32) 0x0000D167#32 ∧ opcodeOf 0x0000D167#32 = 0b1100111#7 := by decide
theorem witness_BranchWordsRun :
    Runs (vector 0x80001000#32 0x80000063#32) 0x80000063#32 ∧ opcodeOf 0x80000063#32 = 0b1100011#7 ∧
    (funct3Of 0x80000063#32 ≠ 0b010#3 ∧ funct3Of 0x80000063#32 ≠ 0b011#3) ∧
    Runs (vector 0x80000000#32 0x0020B463#32) 0x0020B463#32 ∧ opcodeOf 0x0020B463#32 = 0b1100011#7 ∧
    (funct3Of 0x0020B463#32 = 0b010#3 ∨ funct3Of 0x0020B463#32 = 0b011#3) := by decide
theorem witness_RegisterAluWordsRun :
    Runs (vector 0x80000000#32 0x4020C1B3#32) 0x4020C1B3#32 ∧ opcodeOf 0x4020C1B3#32 = 0b0110011#7 := by decide
theorem witness_ImmediateAluWordsRun :
    Runs (vector 0x80000000#32 0x40008193#32) 0x40008193#32 ∧ opcodeOf 0x40008193#32 = 0b0010011#7 := by decide
theorem witness_LoadWordsRun : [0x00408203#32, 0x00509203#32, 0x0020A203#32, 0x0040C203#32, 0x0050D203#32].all (fun w =>
    let s := vector 0x80000000#32 w [(1#5, 0x80000100#32)] loadBytes
    let out := vector 0x80000000#32 w
    decide (Runs s w ∧ Runs out w ∧ opcodeOf w = 0b0000011#7) &&
    [Width.byte, .half, .word].all fun width =>
      (s.mem.memRead Config.reference (s.readReg (rs1Of w) + imm12Word (immIOf w)) width).isOk &&
      decide (out.mem.memRead Config.reference (out.readReg (rs1Of w) + imm12Word (immIOf w)) width =
        .error (.outOfBounds (imm12Word (immIOf w)).toNat 4))) = true := by decide
theorem witness_StoreWordsRun : [(0x00208023#32, 1), (0x00209023#32, 2), (0x0020A023#32, 4)].all (fun p =>
    let s := vector 0x80000000#32 p.1 [(1#5, 0x80003FFC#32)]
    let out := vector 0x80000000#32 p.1 [(1#5, 0x80004000#32)]
    decide (s.mem.wf = true ∧ out.mem.wf = true ∧ Runs s p.1 ∧ Runs out p.1 ∧ opcodeOf p.1 = 0b0100011#7) &&
    inBounds Config.reference (s.readReg (rs1Of p.1) + imm12Word (immSOf p.1)).toNat p.2 &&
    !inBounds Config.reference (out.readReg (rs1Of p.1) + imm12Word (immSOf p.1)).toNat p.2) = true := by decide
theorem witness_NoOpWordsRun :
    Runs (vector 0x80000000#32 0x0000100F#32) 0x0000100F#32 ∧ opcodeOf 0x0000100F#32 = 0b0001111#7 ∧
    Runs (vector 0x80000000#32 0xC0101073#32) 0xC0101073#32 ∧ opcodeOf 0xC0101073#32 = 0b1110011#7 ∧
    isSentinel Config.reference (funct3Of 0xC0101073#32) (immIOf 0xC0101073#32) = false ∧
    isEcall Config.reference 0xC0101073#32 = false := by decide
theorem witness_StepRunsTheDecodedInstruction : inBounds Config.reference (State.reset.setPc 0x80003FFD#32).pc.toNat 4 = false ∧
    (State.reset.setPc 0x80003FFD#32).status = .ready ∧ (vector 0x80003FFC#32 0x00500093#32).status = .ready ∧
    inBounds Config.reference (vector 0x80003FFC#32 0x00500093#32).pc.toNat 4 = true ∧
    decode ((List.range 4).map fun j => (vector 0x80003FFC#32 0x00500093#32).mem.read (0x80003FFC + j)) =
      .ok (.addi 1#5 0#5 5#12, []) := by decide
theorem witness_FetchReadsTheWordAtThePcOrFaults :
    inBounds Config.reference (State.reset.setPc 0x80003FFC#32).pc.toNat 4 = true ∧
    inBounds Config.reference (State.reset.setPc 0x80003FFD#32).pc.toNat 4 = false ∧
    inBounds Config.reference State.reset.pc.toNat 4 = false := by decide
theorem witness_LatchedFaultStaysUntilReset :
    (State.reset.latchFault (.outOfBounds 0 4)).status = .faulted (.outOfBounds 0 4) ∧
    inBounds Config.reference 0x80003FFD 3 = true := by decide
theorem witness_FaultsAndStopsChangeNothing :
    faults (vector 0x80000000#32 0#32) (.decodeFailure 0#32) = true ∧ stops (vector 0x80000000#32 0xC0001073#32) = true := by
  decide
theorem witness_StepWritesAtMostRdAndThePcOnce :
    [0x7FF7F0EF#32, 0x00108067#32, 0x00208463#32, 0x00209463#32, 0x00500093#32].all (fun w =>
    decide (Runs (vector 0x80000000#32 w) w) && completes (vector 0x80000000#32 w)) = true := by decide
theorem witness_OnlyStoresChangeMemory : [0x00500093#32, 0x00208023#32, 0x00209023#32, 0x0020A023#32].all (fun w =>
    let s := vector 0x80000000#32 w [(1#5, 0x80003FFC#32)]
    decide (s.mem.wf = true ∧ Runs s w) && completes s) = true := by decide
theorem witness_OnlyTheSentinelStops : Runs (vector 0x80000000#32 0xC0001073#32) 0xC0001073#32 ∧
    (hostStep (vector 0x80000000#32 0xC0001073#32)).2 = .stop ∧
    (hostStep (vector 0x80000000#32 0xC0101073#32)).2 = .cont := by decide
theorem witness_OnlyEnvironmentCallsReport :
    Runs (vector 0x80000000#32 0x73#32 [(3#5, 1#32)]) 0x73#32 ∧
    completes (vector 0x80000000#32 0x73#32 [(3#5, 1#32)]) = true := by decide
theorem witness_CompletedStepsLeaveTheLatchReady : completes (vector 0x80000000#32 0x00500093#32) = true := by decide
theorem witness_StoredInstructionIsFetchedNext :
    (vector 0x80000000#32 0x0020A223#32 [(1#5, 0x80000000#32)]).mem.wf = true ∧
    effectiveAddress (vector 0x80000000#32 0x0020A223#32 [(1#5, 0x80000000#32)]) 1#5 4#12 = 0x80000000#32 + 4#32 ∧
    inBounds Config.reference (0x80000000#32 + 4#32).toNat 4 = true := by decide
/-- Two states of the same hardware: another slot 0, other outputs. -/
theorem witness_StepDependsOnlyOnTheHardware :
    (vector 0x80000000#32 0x00500093#32).mem.wf = true ∧ completes (vector 0x80000000#32 0x00500093#32) = true ∧
    SameHardware (vector 0x80000000#32 0x00500093#32)
      { vector 0x80000000#32 0x00500093#32 with
        regs := (vector 0x80000000#32 0x00500093#32).regs.set 0 9#32, signal := .stop, reports := [1#32] } := by
  refine ⟨by decide, by decide, ⟨by decide, fun _ => rfl, rfl, rfl⟩⟩
theorem witness_StepKeepsTheInvariant :
    (vector 0x80000000#32 0xFE208FA3#32 [(1#5, 0x80004000#32), (2#5, 0xAB#32)]).Inv Config.reference ∧
    completes (vector 0x80000000#32 0xFE208FA3#32 [(1#5, 0x80004000#32), (2#5, 0xAB#32)]) = true :=
  ⟨⟨by decide, by decide, by decide⟩, by decide⟩
theorem witness_HostOperationsKeepTheInvariant :
    State.reset.Inv Config.reference ∧ Reachable (hostCall (.writeBytes 0x80003FFF [7]) State.reset).1 :=
  ⟨⟨by decide, by decide, by decide⟩, .call _ .reset⟩
theorem witness_LoaderWriteStoresOrLatches : State.reset.mem.wf = true ∧ inBounds Config.reference 0x80003FFD 3 = true ∧
    inBounds Config.reference 0x80003FFE 3 = false := by decide
/-- Three segments in the window, the second over the end of the first, the last of no bytes at its end; the byte of the first
that none of the later ones covers, the byte of the second, and a byte in none. -/
theorem witness_BootedProgramStartsClean :
    let first : Nat × List Byte := (0x80000000, [0x13, 7, 9, 8])
    let later : List (Nat × List Byte) := [(0x80000003, [5]), (0x80004000, [])]
    (∀ seg ∈ first :: later, inBounds Config.reference seg.1 seg.2.length = true) ∧
    (∀ seg ∈ later, 0x80000002 < seg.1 ∨ seg.1 + seg.2.length ≤ 0x80000002) ∧
    (∀ seg ∈ later.drop 1, 0x80000003 < seg.1 ∨ seg.1 + seg.2.length ≤ 0x80000003) ∧
    (∀ seg ∈ first :: later, 0x80000004 < seg.1 ∨ seg.1 + seg.2.length ≤ 0x80000004) := by decide
/-- A later segment overwrites an earlier one (70_reset_and_hazards.md R186). -/
theorem test_boot_overlap :
    let t := boot [(0x80000000, [0x13, 7, 9, 8]), (0x80000003, [5])] State.reset
    t.mem.read 0x80000002 = 9#8 ∧ t.mem.read 0x80000003 = 5#8 ∧ t.pc = 0x80000000#32 := by decide

end Sys2Proof.Tests
end

section
/-! PROOFS. The report values of the reference configuration (00_scope.md R9, R10) and the environment call that reads them. -/

namespace Sys2Proof.Machine

/-- The report values up to the reference `FAIL_ABOVE` are the two that have a name. -/
theorem report_value_cases {r : Word} (h : r.toNat ≤ 1) :
    r = Config.reference.passValue ∨ r = Config.reference.infoValue := by
  have values : r.toNat = 0 ∨ r.toNat = 1 := by omega
  exact values.imp (fun h0 => BitVec.eq_of_toNat_eq h0) (fun h1 => BitVec.eq_of_toNat_eq h1)

/-- A report value that does not fail the run has a signal: pass at 0, informational at 1 (45_misc_system.md R159). -/
theorem reportSignal_reference {r : Word} (h : r.toNat ≤ 1) :
    reportSignal Config.reference r = some (if r = 0#32 then .pass else .informational) := by
  rcases report_value_cases h with rfl | rfl
  · rfl
  · rfl

section
variable {c : Config} {s : State}

/-- The environment call that does not fail reports the value and goes on. -/
theorem ecallStage_reports (h : (s.readReg c.reportReg).toNat ≤ c.failAbove.toNat) :
    ecallStage c s = .next ((s.emitReport (s.readReg c.reportReg)).writeback .none) := by
  rcases ecallStage_cases c s with ⟨above, _⟩ | ⟨_, reports⟩
  · omega
  · exact reports

/-- The environment call above `FAIL_ABOVE` fails the run with the value. -/
theorem ecallStage_fails (h : c.failAbove.toNat < (s.readReg c.reportReg).toNat) :
    ecallStage c s = .fault (.guestTestFailure (s.readReg c.reportReg)) := by
  rcases ecallStage_cases c s with ⟨_, fails⟩ | ⟨le, _⟩
  · exact fails
  · omega
end

/-- After a report and the pc's write, registers, memory and latch are those before. -/
theorem sameButPc_emitReport_writeback_none (s : State) (r : Word) :
    SameButPc s ((s.emitReport r).writeback .none) where
  regs _ := by rw [State.writeback_none_readReg, State.emitReport_readReg]
  mem _ := by rw [State.writeback_mem, State.emitReport_mem]
  status := by rw [State.writeback_status, State.emitReport_status]

/-- Settles O28: `ecallStage` has the two answers, and the reported value is one of the two that have a signal. -/
theorem environmentCallReportsOrFails : Obligations.EnvironmentCallReportsOrFails := by
  intro s rd rs1 imm r
  rw [exec_ecall]
  refine ⟨fun le => ⟨(s.emitReport r).writeback .none, ecallStage_reports le, ?_⟩, fun above => ecallStage_fails above⟩
  have pc : ((s.emitReport r).writeback .none).pc = s.pc + 4#32 := by
    rw [State.writeback_none_pc, State.emitReport_nextPc, State.nextPc]
  have reports : ((s.emitReport r).writeback .none).reports = s.reports ++ [r] := by
    rw [State.writeback_reports, State.emitReport_reports]
  exact ⟨sameButPc_emitReport_writeback_none s r, pc, State.writeback_signal _ _, reports, reportSignal_reference le⟩

/-- Settles O60: three comparisons of the reference values, and the two named report values. -/
theorem referenceConfigurationIsValid : Obligations.ReferenceConfigurationIsValid where
  size_ge := by decide
  top_le := by decide
  reportReg_ne := by decide
  report_named _ le := report_value_cases (BitVec.le_def.1 le)

end Sys2Proof.Machine
end

section
/-! PROOFS. The register file, the pc and the fault latch as single operations leave them (10_state.md R20, R21, R27, R30). -/

namespace Sys2Proof.Machine

/-- Settles O8: the register file's read after write, and the frame of the write field by field. -/
theorem registerWriteThenRead : Obligations.RegisterWriteThenRead := by
  intro s i j v
  exact ⟨s.readReg_writeReg i j v, s.writeReg_pc i v, s.writeReg_mem i v, s.writeReg_status i v,
    s.writeReg_signal i v, s.writeReg_reports i v, s.writeReg_zero v⟩

section
variable {s : State} {f : Fault}

/-- A step in a faulted state reports the latched fault (10_state.md R30). -/
theorem step_of_faulted (h : s.status = .faulted f) : step s = .fault f := by
  rcases step_cases s with ⟨g, latched, reported⟩ | ⟨ready, _⟩ | ⟨ready, _⟩
  · obtain rfl : f = g := Status.faulted.inj (h.symm.trans latched)
    exact reported
  · cases h.symm.trans ready
  · cases h.symm.trans ready

/-- The host sees a step's fault, and the state before with the latch set (60_exceptions.md R165). -/
theorem hostStep_of_fault (h : step s = .fault f) : hostStep s = (s.latchFault f, .fault f) := by
  rw [hostStep, h]

/-- Latching the fault that is latched already changes nothing. -/
theorem State.latchFault_of_faulted (h : s.status = .faulted f) : s.latchFault f = s := by
  rw [State.latchFault, ← h]
end

/-- The loader's write in bounds leaves the latch as it is (70_reset_and_hazards.md R182). -/
theorem hostWriteBytes_status_of_inBounds {c : Config} {addr : Nat} {bytes : List Byte}
    (h : inBounds c addr bytes.length = true) (s : State) : (hostWriteBytes c addr bytes s).1.status = s.status := by
  rcases hostWriteBytes_cases c addr bytes s with ⟨_, stored⟩ | ⟨outside, _⟩
  · rw [stored, State.setMem_status]
  · cases h.symm.trans outside

/-- Settles O42: a step latches again the fault it reports, and neither setPC nor a write in bounds touches the latch. -/
theorem latchedFaultStaysUntilReset : Obligations.LatchedFaultStaysUntilReset := by
  intro s f addr bytes latched
  have reported : step s = .fault f := step_of_faulted latched
  have unchanged : hostStep s = (s, .fault f) := by
    rw [hostStep_of_fault reported, State.latchFault_of_faulted latched]
  have setPC_keeps : (setPC addr s).status = .faulted f := (s.setPc_status _).trans latched
  exact ⟨reported, unchanged, setPC_keeps,
    fun inside => (hostWriteBytes_status_of_inBounds inside s).trans latched, rfl⟩

/-- Settles O56: the stored word is the argument's residue, and the other clauses are the operations' definitions. -/
theorem setPcStoresItsArgumentModulo : Obligations.SetPcStoresItsArgumentModulo := by
  intro s addr
  have stored : (getPC (setPC addr s)).toNat = addr % 2 ^ 32 := BitVec.toNat_ofNat addr 32
  exact ⟨stored, rfl, rfl, rfl, rfl⟩

end Sys2Proof.Machine
end

section
/-! PROOFS. The accessors of the window in bounds and out of bounds (20_memory.md R37 to R41), and a stored word read back as
data and as an instruction (R55, R58). -/

namespace Sys2Proof.Machine

/-! ## Bounds over integers (20_memory.md R37) -/

/-- The bounds check in the spec's words: the offset is an integer, negative below the window. -/
theorem inBounds_iff_offset {c : Config} {a n : Nat} :
    inBounds c a n = true ↔ 0 ≤ (a : Int) - c.memBase ∧ (a : Int) - c.memBase + n ≤ c.memSize := by
  rw [inBounds_iff]
  omega

theorem inBounds_false_iff_offset {c : Config} {a n : Nat} :
    inBounds c a n = false ↔ ¬(0 ≤ (a : Int) - c.memBase ∧ (a : Int) - c.memBase + n ≤ c.memSize) := by
  rw [← inBounds_iff_offset, Bool.not_eq_true]

/-! ## Reading a word (R39) -/

section
variable {c : Config} {a : Word}

theorem Memory.readWord_of_inBounds (h : inBounds c a.toNat 4 = true) (m : Memory) :
    m.readWord c a = .ok (m.word a.toNat) :=
  if_pos h

theorem Memory.readWord_of_not_inBounds (h : inBounds c a.toNat 4 = false) (m : Memory) :
    m.readWord c a = .error (.outOfBounds a.toNat 4) :=
  if_neg (Bool.eq_false_iff.1 h)

/-- A word just stored is what `readWord` answers at its address (R58). -/
theorem Memory.readWord_writeAll_leBytes {m : Memory} (hm : m.wf = true) (h : inBounds c a.toNat 4 = true) (v : Word) :
    Memory.readWord c (m.writeAll a.toNat (leBytes 4 v)) a = .ok v := by
  rw [Memory.readWord_of_inBounds h, Memory.word_writeAll hm]
end

/-- The word-wide mask keeps every bit. -/
@[simp] theorem and_wordMask (v : Word) : v &&& Width.word.mask = v := BitVec.and_allOnes

/-- `MemRead(a, 4)` is `readWord(a)`. -/
theorem Memory.memRead_word (c : Config) (m : Memory) (a : Word) : m.memRead c a .word = m.readWord c a := by
  unfold Memory.memRead
  cases m.readWord c a with
  | ok v => simp
  | error f => rfl

/-- Four bytes laid side by side are the disjunction of the bytes, each shifted to its place. -/
theorem leWord_eq_or (b0 b1 b2 b3 : Byte) :
    leWord b0 b1 b2 b3 =
      b0.setWidth 32 ||| b1.setWidth 32 <<< 8 ||| b2.setWidth 32 <<< 16 ||| b3.setWidth 32 <<< 24 := by
  apply BitVec.eq_of_getLsbD_eq
  intro i hi
  simp only [leWord, BitVec.getLsbD_append, BitVec.getLsbD_or, BitVec.getLsbD_shiftLeft, BitVec.getLsbD_setWidth]
  interval_cases i <;> simp

/-- Settles O9: `inBounds` decides between the two answers, and the answered word is its bytes' disjunction. -/
theorem readWordIsLittleEndian : Obligations.ReadWordIsLittleEndian := by
  intro c m a
  refine ⟨fun inside => ?_, fun outside => ?_, m.memRead_word c a⟩
  · rw [Memory.readWord_of_inBounds (inBounds_iff_offset.2 inside), Memory.word, leWord_eq_or]
  · exact ⟨_, Memory.readWord_of_not_inBounds (inBounds_false_iff_offset.2 outside) m, rfl⟩

/-! ## Writing bytes (R40, R41) -/

section
variable {c : Config} {a : Nat} {bytes : List Byte}

theorem Memory.writeBytes_of_inBounds (h : inBounds c a bytes.length = true) (m : Memory) :
    m.writeBytes c a bytes = .ok (m.writeAll a bytes) :=
  if_pos h

theorem Memory.writeBytes_of_not_inBounds (h : inBounds c a bytes.length = false) (m : Memory) :
    m.writeBytes c a bytes = .error (.outOfBounds a bytes.length) :=
  if_neg (Bool.eq_false_iff.1 h)
end

section
variable {m : Memory} (hm : m.wf = true) {a : Nat} {bytes : List Byte}
include hm

/-- A byte written reads back at its place. -/
theorem Memory.read_writeAll_inside {j : Nat} (hj : j < bytes.length) : (m.writeAll a bytes).read (a + j) = bytes[j] := by
  rw [Memory.read_writeAll hm, if_pos (by omega), Nat.add_sub_cancel_left, List.getD_eq_getElem _ _ hj]

/-- Writing bytes leaves every byte outside their addresses. -/
theorem Memory.read_writeAll_outside {a' : Nat} (h : a' < a ∨ a + bytes.length ≤ a') :
    (m.writeAll a bytes).read a' = m.read a' := by
  rw [Memory.read_writeAll hm, if_neg (by omega)]
end

/-- Settles O10: `inBounds` decides between the two answers, and read after write says what the written memory holds. -/
theorem writeBytesStoresExactlyItsBytes : Obligations.WriteBytesStoresExactlyItsBytes := by
  intro c m a bytes hm
  constructor
  · intro inside
    exact ⟨m.writeAll a bytes, Memory.writeBytes_of_inBounds (inBounds_iff_offset.2 inside) m,
      fun j hj => Memory.read_writeAll_inside hm hj, fun a' ha' => Memory.read_writeAll_outside hm ha'⟩
  · intro outside
    exact ⟨_, Memory.writeBytes_of_not_inBounds (inBounds_false_iff_offset.2 outside) m, rfl⟩

/-- Settles O11: `leBytes` lists the low bytes of each of the three widths. -/
theorem memWriteIsWriteBytesOfTheLowBytes : Obligations.MemWriteIsWriteBytesOfTheLowBytes :=
  fun _ _ _ _ => ⟨rfl, rfl, rfl⟩

/-! ## A stored word read back (R55, R58) -/

/-- `MemWrite(a, 4, v)` in bounds succeeds with the four bytes of v stored. -/
theorem Memory.memWrite_word_of_inBounds {c : Config} {a : Word} (h : inBounds c a.toNat 4 = true) (m : Memory) (v : Word) :
    m.memWrite c a .word v = .ok (m.writeAll a.toNat (leBytes 4 v)) :=
  Memory.writeBytes_of_inBounds (by rwa [leBytes_length]) m

/-- Settles O13: the memory with the word's four bytes written reads back the word, and each byte of it. -/
theorem storedWordReadsBack : Obligations.StoredWordReadsBack := by
  intro c m a v hm inside
  refine ⟨m.writeAll a.toNat (leBytes 4 v), Memory.memWrite_word_of_inBounds inside m v,
    Memory.readWord_writeAll_leBytes hm inside v, fun j hj => ?_⟩
  rw [Memory.read_writeAll_leBytes hm, if_pos (by omega), Nat.add_sub_cancel_left]

/-- SW in bounds writes the four bytes of x[rs2] and advances the pc (44_load_store.md R153). -/
theorem exec_sw_of_inBounds {s : State} {rs1 : RegIdx} {imm : BitVec 12}
    (h : inBounds Config.reference (effectiveAddress s rs1 imm).toNat 4 = true) (rs2 : RegIdx) :
    exec (.sw rs2 rs1 imm) s =
      .next ((s.setMem (s.mem.writeAll (effectiveAddress s rs1 imm).toNat (leBytes 4 (s.readReg rs2)))).writeback .none) := by
  rw [exec_sw]
  rcases storeStage_cases Config.reference (show storeWidth 0b010#3 = some .word from rfl) rs2 rs1 imm s with
    ⟨_, stored⟩ | ⟨outside, _⟩
  · exact stored
  · cases h.symm.trans outside

/-- Settles O49: the state SW leaves has its pc at the address stored to, and fetch reads the memory just written. -/
theorem storedInstructionIsFetchedNext : Obligations.StoredInstructionIsFetchedNext := by
  intro s rs2 rs1 imm hm ea inside
  refine ⟨_, exec_sw_of_inBounds (ea ▸ inside) rs2, ?_⟩
  rw [fetch, State.writeback_mem, State.setMem_mem, State.writeback_none_pc, State.setMem_nextPc, State.nextPc, ea]
  exact Memory.readWord_writeAll_leBytes hm inside (s.readReg rs2)

end Sys2Proof.Machine
end

section
/-! PROOFS. The encodings (30_encoding.md): the opcode lookup and its failures (R68, R69), the words of the two arithmetic
classes (R74, R75), and the illegal words of R79 with what a step answers to any word. -/

namespace Sys2Proof.Machine

/-! ## The encodings that fault in every state -/

/-- The BRANCH stage for an unsupported selector (42_control_transfer.md R110). -/
theorem branchStage_invalid {selector : BitVec 3} (h : selector = 0b010#3 ∨ selector = 0b011#3) (rs1 rs2 : RegIdx)
    (offset : BitVec 13) (s : State) :
    branchStage selector rs1 rs2 offset s = .fault (.invalidOperation selector) := by
  rw [branchStage, cond_unsupported h]
  rfl

/-- Settles O25: the stages of the unsupported selectors and the unrecognised widths fault before they use an address. -/
theorem faultingEncodingsAlwaysFault : Obligations.FaultingEncodingsAlwaysFault := by
  intro s rd rs2 rs1 imm offset word
  refine ⟨branchStage_invalid (.inl rfl) rs1 rs2 offset s, branchStage_invalid (.inr rfl) rs1 rs2 offset s, ?_⟩
  have load (funct3 : BitVec 3) (h : loadWidth funct3 = none) := loadStage_invalid Config.reference h rd rs1 imm s
  have store (funct3 : BitVec 3) (h : storeWidth funct3 = none) := storeStage_invalid Config.reference h rs2 rs1 imm s
  simp only [List.forall_mem_cons]
  exact ⟨load 0b011#3 rfl, load 0b110#3 rfl, load 0b111#3 rfl, store 0b011#3 rfl, store 0b100#3 rfl, store 0b101#3 rfl,
    store 0b110#3 rfl, store 0b111#3 rfl, rfl, fun _ none => absurd none List.not_mem_nil⟩

/-! ## The opcode lookup (R68, R69) -/

/-- The lookup fails exactly on the opcodes outside the table of R68. -/
theorem lookupClass_eq_none_iff {b : BitVec 7} : lookupClass b = none ↔ b ∉ opcodeClasses.map OpcodeClass.bits := by
  simp [lookupClass, List.find?_eq_none]

/-- The low two bits of every class's opcode are 11. -/
theorem opcodeClasses_low_bits : ∀ b ∈ opcodeClasses.map OpcodeClass.bits, b.extractLsb' 0 2 = 0b11#2 := by decide

/-- The low two bits of a word are those of its opcode. -/
theorem opcodeOf_low_bits (w : Word) : (opcodeOf w).extractLsb' 0 2 = w.extractLsb' 0 2 := by
  apply BitVec.eq_of_getLsbD_eq
  intro i hi
  simp only [opcodeOf, BitVec.getLsbD_extractLsb']
  interval_cases i <;> rfl

section
variable {c : Config} {w : Word}

theorem decodeWord_of_noClass (h : lookupClass (opcodeOf w) = none) : decodeWord c w = .decodeFailure w := by
  rw [decodeWord, h]

theorem decodeWord_branch (h : lookupClass (opcodeOf w) = some .branch) : decodeWord c w = decodeBranch w := by
  rw [decodeWord, h]

theorem decodeWord_opImm (h : lookupClass (opcodeOf w) = some .opImm) : decodeWord c w = decodeOpImm w := by
  rw [decodeWord, h]

theorem decodeWord_op (h : lookupClass (opcodeOf w) = some .op) : decodeWord c w = decodeOp w := by
  rw [decodeWord, h]

theorem decodeWord_load (h : lookupClass (opcodeOf w) = some .load) : decodeWord c w = decodeLoad w := by
  rw [decodeWord, h]

theorem decodeWord_store (h : lookupClass (opcodeOf w) = some .store) : decodeWord c w = decodeStore w := by
  rw [decodeWord, h]

theorem decodeWord_system (h : lookupClass (opcodeOf w) = some .system) : decodeWord c w = decodeSystem c w := by
  rw [decodeWord, h]
end

/-- Settles O6: the lookup fails on such a word, so that the step runs the instruction that is DecodeFailure. -/
theorem opcodesOutsideTheElevenFail : Obligations.OpcodesOutsideTheElevenFail := by
  unfold Obligations.OpcodesOutsideTheElevenFail
  intro eleven
  have table : eleven = opcodeClasses.map OpcodeClass.bits := rfl
  refine ⟨fun s w ready fetched outside => ?_, rfl, fun w low inside => ?_, by decide, by decide⟩
  · have noClass : lookupClass (opcodeOf w) = none := lookupClass_eq_none_iff.2 (table ▸ outside)
    have raised : step s = .fault (.decodeFailure w) := by
      rw [step_of_fetch ready fetched, decodeWord_of_noClass noClass, exec_decodeFailure, raise]
    exact ⟨raised, hostStep_of_fault raised⟩
  · exact low (opcodeOf_low_bits w ▸ opcodeClasses_low_bits _ (table ▸ inside))

/-! ## The two arithmetic classes (R74, R75) -/

theorem altOp_eq_decide (funct7 : BitVec 7) : altOp funct7 = decide (funct7 = 0b0100000#7) := rfl

theorem altOpImm_eq_decide (funct3 : BitVec 3) (funct7 : BitVec 7) :
    altOpImm funct3 funct7 = decide (funct3 = 0b101#3 ∧ funct7 = 0b0100000#7) :=
  (Bool.decide_and _ _).symm

/-- Settles O34: the word runs the OP stage with its own fields. -/
theorem registerAluWordsRun : Obligations.RegisterAluWordsRun := by
  intro s w ready fetched op
  rw [step_of_fetch ready fetched, decodeWord_op (lookupClass_of_opcode op), exec_decodeOp, altOp_eq_decide]
  exact opStage_wrote _ _ _ _ _ s

/-- Settles O35: the word runs the OP-IMM stage with its own fields, the flag that of R75. -/
theorem immediateAluWordsRun : Obligations.ImmediateAluWordsRun := by
  intro s w ready fetched op
  rw [step_of_fetch ready fetched, decodeWord_opImm (lookupClass_of_opcode op), exec_decodeOpImm, altOpImm_eq_decide]
  exact opImmStage_wrote _ _ _ _ _ s

/-! ## The illegal encodings (R79) -/

/-- The widths LOAD does not recognise (R71). -/
theorem loadWidth_eq_none_iff {funct3 : BitVec 3} : loadWidth funct3 = none ↔ funct3 ∈ [0b011#3, 0b110#3, 0b111#3] := by
  revert funct3; decide

/-- The widths STORE does not recognise (R72). -/
theorem storeWidth_eq_none_iff {funct3 : BitVec 3} :
    storeWidth funct3 = none ↔ funct3 ∈ [0b011#3, 0b100#3, 0b101#3, 0b110#3, 0b111#3] := by
  revert funct3; decide

/-- The words that raise DecodeFailure: an unknown opcode, or an unrecognised width (R79 (a), (b)). -/
def Undecodable (w : Word) : Prop :=
  lookupClass (opcodeOf w) = none ∨
    (lookupClass (opcodeOf w) = some .load ∧ funct3Of w ∈ [0b011#3, 0b110#3, 0b111#3]) ∨
    (lookupClass (opcodeOf w) = some .store ∧ funct3Of w ∈ [0b011#3, 0b100#3, 0b101#3, 0b110#3, 0b111#3])

/-- The words that raise InvalidOperation: a branch of unsupported selector (R79 (c)). -/
def Unsupported (w : Word) : Prop :=
  lookupClass (opcodeOf w) = some .branch ∧ funct3Of w ∈ [0b010#3, 0b011#3]

/-- The words R79 does not list. -/
def Legal (w : Word) : Prop := ¬Undecodable w ∧ ¬Unsupported w

/-- No word is listed twice. -/
theorem Undecodable.not_unsupported {w : Word} (h : Undecodable w) : ¬Unsupported w := by
  rintro ⟨branch, _⟩
  rcases h with none | ⟨load, _⟩ | ⟨store, _⟩
  · cases branch.symm.trans none
  · cases branch.symm.trans load
  · cases branch.symm.trans store

/-- R79 lists no word of a class whose width or selector the class knows. -/
theorem legal_of_class {w : Word} {k : OpcodeClass} (h : lookupClass (opcodeOf w) = some k)
    (load : k = .load → loadWidth (funct3Of w) ≠ none) (store : k = .store → storeWidth (funct3Of w) ≠ none)
    (branch : k = .branch → funct3Of w ∉ [0b010#3, 0b011#3]) : Legal w := by
  constructor
  · rintro (none | ⟨cls, width⟩ | ⟨cls, width⟩)
    · cases h.symm.trans none
    · exact load (Option.some.inj (h.symm.trans cls)) (loadWidth_eq_none_iff.2 width)
    · exact store (Option.some.inj (h.symm.trans cls)) (storeWidth_eq_none_iff.2 width)
  · rintro ⟨cls, selector⟩
    exact branch (Option.some.inj (h.symm.trans cls)) selector

/-- Everything an instruction word can answer: the fault R79 gives it, or, for a word R79 does not list, a next state, the
OutOfBounds of an access, or the GuestTestFailure of an environment call. -/
inductive WordAnswer (w : Word) : Outcome → Prop where
  | undecodable (listed : Undecodable w) : WordAnswer w (.fault (.decodeFailure w))
  | unsupported (listed : Unsupported w) : WordAnswer w (.fault (.invalidOperation (funct3Of w)))
  | completed (legal : Legal w) (t : State) : WordAnswer w (.next t)
  | outOfBounds (legal : Legal w)
      (access : lookupClass (opcodeOf w) = some .load ∨ lookupClass (opcodeOf w) = some .store) (address width : Nat) :
      WordAnswer w (.fault (.outOfBounds address width))
  | testFailed (legal : Legal w) (system : lookupClass (opcodeOf w) = some .system)
      (ecall : isEcall Config.reference w = true) (report : Word) : WordAnswer w (.fault (.guestTestFailure report))

section
variable {w : Word} (s : State)

theorem branchWord_answer (h : lookupClass (opcodeOf w) = some .branch) : WordAnswer w (exec (decodeBranch w) s) := by
  rw [exec_decodeBranch]
  by_cases bad : funct3Of w ∈ [0b010#3, 0b011#3]
  · rw [branchStage_invalid (by simpa using bad)]
    exact .unsupported ⟨h, bad⟩
  · have supported : funct3Of w ≠ 0b010#3 ∧ funct3Of w ≠ 0b011#3 := by simpa using bad
    obtain ⟨t, completes, _⟩ := branchStage_wrote supported.1 supported.2 (rs1Of w) (rs2Of w) (immBOf w) s
    rw [completes]
    exact .completed (legal_of_class h nofun nofun fun _ => bad) t

theorem loadWord_answer (h : lookupClass (opcodeOf w) = some .load) : WordAnswer w (exec (decodeLoad w) s) := by
  rw [exec_decodeLoad]
  cases width : loadWidth (funct3Of w) with
  | none =>
    rw [loadStage_invalid _ width, iWord_fields (bits_of_lookupClass h)]
    exact .undecodable (.inr (.inl ⟨h, loadWidth_eq_none_iff.1 width⟩))
  | some p =>
    have legal : Legal w := legal_of_class h (fun _ none => by cases width.symm.trans none) nofun nofun
    rcases loadStage_cases Config.reference width (rdOf w) (rs1Of w) (immIOf w) s with ⟨_, answer⟩ | ⟨_, answer⟩
    · rw [answer]; exact .completed legal _
    · rw [answer]; exact .outOfBounds legal (.inl h) _ _

theorem storeWord_answer (h : lookupClass (opcodeOf w) = some .store) : WordAnswer w (exec (decodeStore w) s) := by
  rw [exec_decodeStore]
  cases width : storeWidth (funct3Of w) with
  | none =>
    rw [storeStage_invalid _ width, sWord_fields (bits_of_lookupClass h)]
    exact .undecodable (.inr (.inr ⟨h, storeWidth_eq_none_iff.1 width⟩))
  | some p =>
    have legal : Legal w := legal_of_class h nofun (fun _ none => by cases width.symm.trans none) nofun
    rcases storeStage_cases Config.reference width (rs2Of w) (rs1Of w) (immSOf w) s with ⟨_, answer⟩ | ⟨_, answer⟩
    · rw [answer]; exact .completed legal _
    · rw [answer]; exact .outOfBounds legal (.inr h) _ _

theorem systemWord_answer (h : lookupClass (opcodeOf w) = some .system) :
    WordAnswer w (exec (decodeSystem Config.reference w) s) := by
  have legal : Legal w := legal_of_class h nofun nofun nofun
  unfold decodeSystem
  split_ifs with sentinel ecall
  · exact .completed legal _
  · rw [exec_ecall]
    rcases ecallStage_cases Config.reference s with ⟨_, answer⟩ | ⟨_, answer⟩
    · rw [answer]; exact .testFailed legal h ecall _
    · rw [answer]; exact .completed legal _
  · exact .completed legal _
end

/-- What the instruction of any word answers, by the word's class. -/
theorem exec_decodeWord_answer (w : Word) (s : State) : WordAnswer w (exec (decodeWord Config.reference w) s) := by
  cases h : lookupClass (opcodeOf w) with
  | none => rw [decodeWord_of_noClass h]; exact .undecodable (.inl h)
  | some k =>
    cases k
    case branch => rw [decodeWord_branch h]; exact branchWord_answer s h
    case load => rw [decodeWord_load h]; exact loadWord_answer s h
    case store => rw [decodeWord_store h]; exact storeWord_answer s h
    case system => rw [decodeWord_system h]; exact systemWord_answer s h
    case op => rw [decodeWord_op h, exec_decodeOp]; exact .completed (legal_of_class h nofun nofun nofun) _
    case opImm => rw [decodeWord_opImm h, exec_decodeOpImm]; exact .completed (legal_of_class h nofun nofun nofun) _
    case lui | auipc | jal | jalr | miscMem => rw [decodeWord, h]; exact .completed (legal_of_class h nofun nofun nofun) _

/-! ### R79 read off the answer -/

section
variable {w : Word} {o : Outcome}

theorem WordAnswer.decodeFailure_iff (h : WordAnswer w o) :
    (∃ f, o = .fault f ∧ f.kind = .decodeFailure) ↔ Undecodable w := by
  cases h with
  | undecodable listed => exact iff_of_true ⟨_, rfl, rfl⟩ listed
  | unsupported listed => exact iff_of_false (by simp [Fault.kind]) fun h => h.not_unsupported listed
  | completed legal _ => exact iff_of_false (by simp) legal.1
  | outOfBounds legal _ _ _ => exact iff_of_false (by simp [Fault.kind]) legal.1
  | testFailed legal _ _ _ => exact iff_of_false (by simp [Fault.kind]) legal.1

theorem WordAnswer.invalidOperation_iff (h : WordAnswer w o) :
    (∃ f, o = .fault f ∧ f.kind = .invalidOperation) ↔ Unsupported w := by
  cases h with
  | undecodable listed => exact iff_of_false (by simp [Fault.kind]) listed.not_unsupported
  | unsupported listed => exact iff_of_true ⟨_, rfl, rfl⟩ listed
  | completed legal _ => exact iff_of_false (by simp) legal.2
  | outOfBounds legal _ _ _ => exact iff_of_false (by simp [Fault.kind]) legal.2
  | testFailed legal _ _ _ => exact iff_of_false (by simp [Fault.kind]) legal.2

theorem WordAnswer.of_legal (h : WordAnswer w o) (legal : Legal w) :
    (∃ t, o = .next t) ∨
      (∃ f, o = .fault f ∧ f.kind = .outOfBounds ∧
        (lookupClass (opcodeOf w) = some .load ∨ lookupClass (opcodeOf w) = some .store)) ∨
      (∃ f, o = .fault f ∧ f.kind = .guestTestFailure ∧
        lookupClass (opcodeOf w) = some .system ∧ isEcall Config.reference w = true) := by
  cases h with
  | undecodable listed => exact absurd listed legal.1
  | unsupported listed => exact absurd listed legal.2
  | completed _ t => exact .inl ⟨t, rfl⟩
  | outOfBounds _ access _ _ => exact .inr (.inl ⟨_, rfl, rfl, access⟩)
  | testFailed _ system ecall _ => exact .inr (.inr ⟨_, rfl, rfl, system, ecall⟩)

theorem WordAnswer.not_refused (h : WordAnswer w o) (r : Refusal) : o ≠ .refused r := by
  cases h <;> nofun
end

/-- Settles O7: the step's answer is one of the five a word can have, and each belongs to one clause of R79 alone. -/
theorem illegalEncodingsAreExactlyThese : Obligations.IllegalEncodingsAreExactlyThese := by
  intro s w ready fetched
  have answer : WordAnswer w (step s) := step_of_fetch ready fetched ▸ exec_decodeWord_answer w s
  exact ⟨answer.decodeFailure_iff, answer.invalidOperation_iff,
    fun decodable supported => answer.of_legal ⟨decodable, supported⟩, answer.not_refused⟩

end Sys2Proof.Machine
end

section
/-! PROOFS. The fetch of a step (40_execution_cycle.md R87), what a faulting or a stopping step leaves (R93), and what a
completed step writes (R95). -/

namespace Sys2Proof.Machine

/-! ## Fetch (R87) -/

/-- A fetch that fails is the step's fault. -/
theorem step_of_fetch_error {s : State} {f : Fault} (ready : s.status = .ready)
    (failed : fetch Config.reference s = .error f) : step s = .fault f := by
  simp only [step, ready, failed, raise]

/-- Settles O41: fetch is `readWord` at the pc, and its failure is the step's. -/
theorem fetchReadsTheWordAtThePcOrFaults : Obligations.FetchReadsTheWordAtThePcOrFaults := by
  intro s ready
  refine ⟨fun inside => ?_, fun outside => ?_⟩
  · exact Memory.readWord_of_inBounds inside s.mem
  · exact ⟨_, step_of_fetch_error ready (Memory.readWord_of_not_inBounds outside s.mem), rfl⟩

/-! ## Steps that fault and steps that stop (R93) -/

/-- The only completed step that returns Stop is the sentinel's, which changes nothing but the returned value. -/
theorem Completes.eq_of_stop {i : Instr} {s t : State} (h : Completes i s t) (stop : t.signal = .stop) :
    t = { s with signal := .stop } := by
  cases h with
  | wrote wb => cases (State.writeback_signal s wb).symm.trans stop
  | stored ea bytes => cases (State.writeback_signal (s.setMem _) .none).symm.trans stop
  | reported => cases (State.writeback_signal (s.emitReport _) .none).symm.trans stop
  | stopped => rfl

/-- The returned value is no part of the machine. -/
theorem sameMachine_signal (s : State) (signal : Signal) : SameMachine s { s with signal := signal } :=
  ⟨⟨fun _ => rfl, fun _ => rfl, rfl⟩, rfl, rfl⟩

/-- Settles O43: a fault leaves the state before with the latch set, and the only Stop is the sentinel's. -/
theorem faultsAndStopsChangeNothing : Obligations.FaultsAndStopsChangeNothing := by
  intro s
  constructor
  · intro f raised
    rw [hostStep_of_fault raised]
    exact ⟨rfl, rfl, fun r => s.latchFault_readReg r f, s.latchFault_pc f, s.latchFault_mem f, s.latchFault_reports f,
      s.latchFault_status f⟩
  · intro t completed stop
    obtain ⟨w, _, _, executed⟩ := step_next_inv completed
    obtain rfl : t = { s with signal := .stop } := (exec_completes executed).eq_of_stop stop
    exact ⟨by rw [hostStep, completed], sameMachine_signal s .stop⟩

/-! ## What a completed step writes (R95) -/

/-- A register write leaves every other register. -/
theorem State.readReg_writeReg_of_ne (s : State) {i j : RegIdx} (h : j ≠ i) (v : Word) :
    (s.writeReg i v).readReg j = s.readReg j := by
  rw [State.readReg_writeReg, if_neg h]
  split
  · next zero => rw [zero, State.readReg_zero]
  · rfl

/-- The classes that write a result to rd are none of JAL, JALR and BRANCH. -/
theorem resultClass_bits_notMem : ∀ k ∈ [OpcodeClass.lui, .auipc, .op, .opImm, .load],
    k.bits ∉ [0b1101111#7, 0b1100111#7, 0b1100011#7] := by
  decide

/-- Where a step that continues goes on, by the fetched word's class. -/
inductive ContinuesAt (w : Word) (s : State) : Word → Prop where
  | jal (op : opcodeOf w = OpcodeClass.jal.bits) : ContinuesAt w s (s.pc + immJWord (immJOf w))
  | jalr (op : opcodeOf w = OpcodeClass.jalr.bits) : ContinuesAt w s (s.readReg (rs1Of w) + imm12Word (immIOf w))
  | taken (op : opcodeOf w = OpcodeClass.branch.bits)
      (yes : branchTaken (funct3Of w) (s.readReg (rs1Of w)) (s.readReg (rs2Of w))) :
      ContinuesAt w s (s.pc + immBWord (immBOf w))
  | notTaken (op : opcodeOf w = OpcodeClass.branch.bits)
      (no : ¬branchTaken (funct3Of w) (s.readReg (rs1Of w)) (s.readReg (rs2Of w))) : ContinuesAt w s (s.pc + 4#32)
  | straight (other : opcodeOf w ∉ [0b1101111#7, 0b1100111#7, 0b1100011#7]) : ContinuesAt w s (s.pc + 4#32)

section
variable {w : Word} {s t : State}

/-- A completed step writes no register but rd of the fetched word. -/
theorem StepDid.readReg_of_ne (h : StepDid w s t) {r : RegIdx} (ne : r ≠ rdOf w) : t.readReg r = s.readReg r := by
  cases h with
  | result | jal | jalr => exact s.readReg_writeReg_of_ne ne _
  | taken | notTaken | store | noOp | report | stop => rfl

/-- A completed step that returns Continue goes on where its word's class says. -/
theorem StepDid.continuesAt (h : StepDid w s t) (cont : t.signal = .cont) : ContinuesAt w s t.pc := by
  cases h with
  | result v k op plain => exact .straight (op ▸ resultClass_bits_notMem k plain)
  | jal op => exact .jal op
  | jalr op => exact .jalr op
  | taken op yes => exact .taken op yes
  | notTaken op no => exact .notTaken op no
  | store op => exact .straight (by rw [op]; decide)
  | noOp op =>
    rcases op with op | op
    · exact .straight (by rw [op]; decide)
    · exact .straight (by rw [op]; decide)
  | report op => exact .straight (by rw [op]; decide)
  | stop => cases cont
end

/-- Settles O44: a completed step did one of the things its word's class allows. -/
theorem stepWritesAtMostRdAndThePcOnce : Obligations.StepWritesAtMostRdAndThePcOnce := by
  intro s t w fetched completed
  obtain ⟨w', _, fetched', did⟩ := step_did completed
  obtain rfl : w' = w := Except.ok.inj (fetched'.symm.trans fetched)
  refine ⟨fun r ne => did.readReg_of_ne ne, fun cont => ?_⟩
  generalize t.pc = pc, did.continuesAt cont = at_pc
  cases at_pc with
  | jal op => simp [op, OpcodeClass.bits]
  | jalr op => simp [op, OpcodeClass.bits]
  | taken op yes => simp [op, OpcodeClass.bits, yes]
  | notTaken op no => simp [op, OpcodeClass.bits, no]
  | straight other =>
    simp only [List.mem_cons, not_or] at other
    obtain ⟨jal, jalr, branch, _⟩ := other
    exact ⟨fun h => absurd h jal, fun h => absurd h jalr, fun h => absurd h branch, fun _ => rfl⟩

end Sys2Proof.Machine
end

section
/-! PROOFS. The stage sequence of 40_execution_cycle.md R86 held against the step: each class of word, from its decoded record
through the pseudocode's stages to the stage that `exec` runs for it. -/

namespace Sys2Proof.Machine

/-! ## The decoded record (R88) -/

/-- The record of a word of class `k` (30_encoding.md R78). -/
def recordOf (k : OpcodeClass) (w : Word) : Decoded where
  opclass := k
  funct3 := funct3Of w
  funct7 := funct7Of w
  rd := rdOf w
  rs1 := rs1Of w
  rs2 := rs2Of w
  immI := imm12Word (immIOf w)
  immS := imm12Word (immSOf w)
  immB := immBWord (immBOf w)
  immU := immUWord (immUOf w)
  immJ := immJWord (immJOf w)

theorem decodeRecord_of_class {w : Word} {k : OpcodeClass} (h : lookupClass (opcodeOf w) = some k) :
    decodeRecord w = some (recordOf k w) := by
  rw [decodeRecord, h]
  rfl

theorem decodeRecord_of_noClass {w : Word} (h : lookupClass (opcodeOf w) = none) : decodeRecord w = none := by
  rw [decodeRecord, h]
  rfl

/-! ## Memory access and writeback (R91, R92) -/

section
variable {c : Config} {w a v : Word} {d : Decoded} {funct3 : BitVec 3} {s : State} {m : Memory} {p : Pending}

/-- With no memory request pending, only writeback is left. -/
theorem pseudoFinish_of_noRequest (h : p.mem = none) :
    pseudoFinish c w d p s = .next (pseudoWriteback d.rd p s.pc s) := by
  simp only [pseudoFinish, pseudoMemory, h]
  rfl

/-- A recognised load width reads memory and extends what it read. -/
theorem pseudoMemory_load {width : Width} {signed : Bool} (h : loadWidth funct3 = some (width, signed))
    (request : p.mem = some (.load a funct3)) :
    pseudoMemory c w p m =
      (m.memRead c a width).map fun v => ({ p with result := extendLoad signed width v }, m) := by
  rw [pseudoMemory, request]
  rcases selector_cases funct3 with rfl | rfl | rfl | rfl | rfl | rfl | rfl | rfl <;> cases h <;> rfl

theorem pseudoMemory_load_invalid (h : loadWidth funct3 = none) (request : p.mem = some (.load a funct3)) :
    pseudoMemory c w p m = .error (.decodeFailure w) := by
  rw [pseudoMemory, request]
  rcases selector_cases funct3 with rfl | rfl | rfl | rfl | rfl | rfl | rfl | rfl <;> cases h <;> rfl

/-- A recognised store width writes the low bytes. -/
theorem pseudoMemory_store {width : Width} (h : storeWidth funct3 = some width)
    (request : p.mem = some (.store a funct3 v)) :
    pseudoMemory c w p m = (m.memWrite c a width v).map fun m' => (p, m') := by
  rw [pseudoMemory, request]
  rcases selector_cases funct3 with rfl | rfl | rfl | rfl | rfl | rfl | rfl | rfl <;> cases h <;> rfl

theorem pseudoMemory_store_invalid (h : storeWidth funct3 = none) (request : p.mem = some (.store a funct3 v)) :
    pseudoMemory c w p m = .error (.decodeFailure w) := by
  rw [pseudoMemory, request]
  rcases selector_cases funct3 with rfl | rfl | rfl | rfl | rfl | rfl | rfl | rfl <;> cases h <;> rfl

/-! With no memory request, each kind of pending writeback retires as the instruction's own `Writeback` does. -/

theorem pseudoFinish_result :
    pseudoFinish c w d { result := v, wb := true } s = retire (.result d.rd v) s :=
  pseudoFinish_of_noRequest rfl

theorem pseudoFinish_link : pseudoFinish c w d { target := some a, link := true } s = retire (.link d.rd a) s :=
  pseudoFinish_of_noRequest rfl

theorem pseudoFinish_jump : pseudoFinish c w d { target := some a } s = retire (.jump a) s :=
  pseudoFinish_of_noRequest rfl

theorem pseudoFinish_nothing : pseudoFinish c w d {} s = retire .none s :=
  pseudoFinish_of_noRequest rfl

/-- A pending load of the word `w` ends as the LOAD stage does. -/
theorem pseudoFinish_load (op : opcodeOf w = OpcodeClass.load.bits) :
    pseudoFinish c w (recordOf .load w)
        { mem := some (.load (effectiveAddress s (rs1Of w) (immIOf w)) (funct3Of w)), wb := true } s =
      loadStage c (funct3Of w) (rdOf w) (rs1Of w) (immIOf w) s := by
  cases h : loadWidth (funct3Of w) with
  | none =>
    rw [pseudoFinish, pseudoMemory_load_invalid h rfl, loadStage_invalid c h, iWord_fields op]
    rfl
  | some found =>
    obtain ⟨width, signed⟩ := found
    rw [pseudoFinish, pseudoMemory_load h rfl]
    simp only [loadStage, h]
    cases s.mem.memRead c (effectiveAddress s (rs1Of w) (immIOf w)) width <;> rfl

/-- A pending store of the word `w` ends as the STORE stage does. -/
theorem pseudoFinish_store (op : opcodeOf w = OpcodeClass.store.bits) :
    pseudoFinish c w (recordOf .store w)
        { mem := some (.store (effectiveAddress s (rs1Of w) (immSOf w)) (funct3Of w) (s.readReg (rs2Of w))) } s =
      storeStage c (funct3Of w) (rs2Of w) (rs1Of w) (immSOf w) s := by
  cases h : storeWidth (funct3Of w) with
  | none =>
    rw [pseudoFinish, pseudoMemory_store_invalid h rfl, storeStage_invalid c h, sWord_fields op]
    rfl
  | some width =>
    rw [pseudoFinish, pseudoMemory_store h rfl]
    simp only [storeStage, h]
    cases s.mem.memWrite c (effectiveAddress s (rs1Of w) (immSOf w)) width (s.readReg (rs2Of w)) <;> rfl
end

/-! ## Execute (R90) -/

/-- What the execute stage makes of a word of class `k`, its operands read from `s`. -/
def executedIn (c : Config) (s : State) (k : OpcodeClass) (w : Word) : Executed :=
  pseudoExecute c w (recordOf k w) (s.readReg (rs1Of w)) (s.readReg (rs2Of w)) s.pc (s.readReg c.reportReg)

/-- The sentinel's test compares the 12 bits, R86 the immediate as used: the same test. -/
theorem isSentinel_iff {c : Config} {funct3 : BitVec 3} {imm : BitVec 12} :
    isSentinel c funct3 imm = true ↔ funct3 = c.sentinelFunct3 ∧ imm12Word imm = imm12Word c.sentinelImm := by
  have same_imm : imm12Word imm = imm12Word c.sentinelImm ↔ imm = c.sentinelImm := by
    refine ⟨fun h => BitVec.eq_of_toInt_eq ?_, congrArg imm12Word⟩
    rw [← imm12Word_toInt imm, h, imm12Word_toInt]
  rw [same_imm, isSentinel, Bool.and_eq_true, beq_iff_eq, beq_iff_eq]

section
variable {c : Config} {s : State} {w : Word}

theorem executedIn_branch {taken : Bool}
    (decided : cond (funct3Of w) (s.readReg (rs1Of w)) (s.readReg (rs2Of w)) = .ok taken) :
    executedIn c s .branch w =
      .pending { target := if taken then some (branchTarget s (immBOf w)) else none } := by
  simp only [executedIn, pseudoExecute, recordOf, decided, branchTarget]

theorem executedIn_branch_fault {f : Fault}
    (failed : cond (funct3Of w) (s.readReg (rs1Of w)) (s.readReg (rs2Of w)) = .error f) :
    executedIn c s .branch w = .raised f := by
  simp only [executedIn, pseudoExecute, recordOf, failed]

theorem executedIn_system :
    executedIn c s .system w =
      if isSentinel c (funct3Of w) (immIOf w) then .stop
      else if isEcall c w then
        if c.failAbove.toNat < (s.readReg c.reportReg).toNat then .raised (.guestTestFailure (s.readReg c.reportReg))
        else .report (s.readReg c.reportReg)
      else .pending {} := by
  simp only [executedIn, pseudoExecute, recordOf, isSentinel_iff, unsignedLess, decide_eq_true_eq]
end

/-! ## The whole step -/

/-- What R86 does after the execute stage. -/
def afterExecute (c : Config) (s : State) (k : OpcodeClass) (w : Word) : Executed → Outcome
  | .stop => stopStep s
  | .raised f => raise f
  | .report r => pseudoFinish c w (recordOf k w) {} (s.emitReport r)
  | .pending p => pseudoFinish c w (recordOf k w) p s

section
variable {c : Config} {s : State} {f : Fault}

theorem pseudoStep_of_faulted (latched : s.status = .faulted f) : pseudoStep c s = .fault f := by
  simp only [pseudoStep, latched, raise]

variable (ready : s.status = .ready)
include ready

theorem pseudoStep_of_fetch_error (failed : fetch c s = .error f) : pseudoStep c s = .fault f := by
  rw [fetch] at failed
  simp only [pseudoStep, ready, failed, raise]

variable {w : Word} (fetched : fetch c s = .ok w)
include fetched

theorem pseudoStep_of_noClass (noClass : lookupClass (opcodeOf w) = none) :
    pseudoStep c s = raise (.decodeFailure w) := by
  rw [fetch] at fetched
  simp only [pseudoStep, ready, fetched, decodeRecord_of_noClass noClass]

/-- After decode, the step goes on as the execute stage says. -/
theorem pseudoStep_of_class {k : OpcodeClass} (cls : lookupClass (opcodeOf w) = some k) :
    pseudoStep c s = afterExecute c s k w (executedIn c s k w) := by
  rw [fetch] at fetched
  simp only [pseudoStep, ready, fetched, decodeRecord_of_class cls]
  rfl

theorem pseudoStep_of_pending {k : OpcodeClass} (cls : lookupClass (opcodeOf w) = some k) {p : Pending}
    (executed : executedIn c s k w = .pending p) : pseudoStep c s = pseudoFinish c w (recordOf k w) p s := by
  rw [pseudoStep_of_class ready fetched cls, executed, afterExecute]

theorem pseudoStep_branch (cls : lookupClass (opcodeOf w) = some .branch) :
    pseudoStep c s = branchStage (funct3Of w) (rs1Of w) (rs2Of w) (immBOf w) s := by
  rw [pseudoStep_of_class ready fetched cls, branchStage]
  rcases decided : cond (funct3Of w) (s.readReg (rs1Of w)) (s.readReg (rs2Of w)) with f | (_ | _)
  · rw [executedIn_branch_fault decided]
    rfl
  · rw [executedIn_branch decided]
    exact pseudoFinish_nothing (c := c) (w := w)
  · rw [executedIn_branch decided]
    exact pseudoFinish_jump (c := c) (w := w)

theorem pseudoStep_system (cls : lookupClass (opcodeOf w) = some .system) :
    pseudoStep c s =
      if isSentinel c (funct3Of w) (immIOf w) then stopStep s
      else if isEcall c w then ecallStage c s
      else retire .none s := by
  rw [pseudoStep_of_class ready fetched cls, executedIn_system, ecallStage]
  split_ifs
  · rfl
  · rfl
  · exact pseudoFinish_nothing (c := c) (w := w)
  · exact pseudoFinish_nothing (c := c) (w := w)
end

theorem exec_decodeSystem (w : Word) (s : State) :
    exec (decodeSystem Config.reference w) s =
      if isSentinel Config.reference (funct3Of w) (immIOf w) then stopStep s
      else if isEcall Config.reference w then ecallStage Config.reference s
      else retire .none s := by
  unfold decodeSystem
  split_ifs <;> rfl

/-- The fetched word's instruction is the later stages of R86, class by class. -/
theorem pseudoStep_of_fetch {s : State} {w : Word} (ready : s.status = .ready)
    (fetched : fetch Config.reference s = .ok w) :
    pseudoStep Config.reference s = exec (decodeWord Config.reference w) s := by
  cases cls : lookupClass (opcodeOf w) with
  | none => rw [decodeWord_of_noClass cls, exec_decodeFailure, pseudoStep_of_noClass ready fetched cls]
  | some k =>
    have finish {p : Pending} := pseudoStep_of_pending ready fetched cls (p := p)
    cases k
    case branch => rw [decodeWord_branch cls, exec_decodeBranch, pseudoStep_branch ready fetched cls]
    case system => rw [decodeWord_system cls, exec_decodeSystem, pseudoStep_system ready fetched cls]
    case load =>
      rw [decodeWord_load cls, exec_decodeLoad, ← pseudoFinish_load (bits_of_lookupClass cls)]
      exact finish rfl
    case store =>
      rw [decodeWord_store cls, exec_decodeStore, ← pseudoFinish_store (bits_of_lookupClass cls)]
      exact finish rfl
    case op =>
      rw [decodeWord_op cls, exec_decodeOp]
      exact (finish rfl).trans pseudoFinish_result
    case opImm =>
      rw [decodeWord_opImm cls, exec_decodeOpImm]
      exact (finish rfl).trans pseudoFinish_result
    case lui | auipc =>
      rw [decodeWord, cls]
      exact (finish rfl).trans pseudoFinish_result
    case jal | jalr =>
      rw [decodeWord, cls]
      exact (finish rfl).trans pseudoFinish_link
    case miscMem =>
      rw [decodeWord, cls]
      exact (finish rfl).trans pseudoFinish_nothing

/-- Settles O40: both steps answer the latched fault, the fetch's fault, or what the fetched word's class does. -/
theorem stepIsThePseudocodeStep : Obligations.StepIsThePseudocodeStep := by
  intro s
  cases latch : s.status with
  | faulted f => rw [step_of_faulted latch, pseudoStep_of_faulted latch]
  | ready =>
    cases fetched : fetch Config.reference s with
    | error f => rw [step_of_fetch_error latch fetched, pseudoStep_of_fetch_error latch fetched]
    | ok w => rw [step_of_fetch latch fetched, pseudoStep_of_fetch latch fetched]

end Sys2Proof.Machine
end

section
/-! PROOFS. The upper-immediate words (41_upper_immediate.md R98, R99) on every word a step fetches. -/

namespace Sys2Proof.Machine

/-- The immediate of the U format is the word under the mask of R65: its upper 20 bits, above 12 zeros. -/
theorem immUWord_immUOf (w : Word) : immUWord (immUOf w) = w &&& 0xFFFFF000#32 := by
  have halves : w.extractLsb' 12 20 ++ w.extractLsb' 0 12 = w := BitVec.extractLsb'_append_extractLsb'
  have mask : 0xFFFFF000#32 = BitVec.allOnes 20 ++ 0#12 := rfl
  calc immUWord (immUOf w)
      _ = (w.extractLsb' 12 20 &&& BitVec.allOnes 20) ++ (w.extractLsb' 0 12 &&& 0#12) := by
        rw [BitVec.and_allOnes, BitVec.and_zero, immUWord, immUOf]
      _ = w &&& 0xFFFFF000#32 := by rw [← BitVec.and_append, halves, mask]

section
variable {c : Config} {w : Word}

theorem decodeWord_lui (op : opcodeOf w = OpcodeClass.lui.bits) : decodeWord c w = .lui (rdOf w) (immUOf w) := by
  rw [decodeWord, lookupClass_of_opcode op]

theorem decodeWord_auipc (op : opcodeOf w = OpcodeClass.auipc.bits) : decodeWord c w = .auipc (rdOf w) (immUOf w) := by
  rw [decodeWord, lookupClass_of_opcode op]
end

/-- Settles O30: the word runs LUI or AUIPC with its own rd and immediate, and the result is retired to rd. -/
theorem upperImmediateWordsRun : Obligations.UpperImmediateWordsRun := by
  intro s w ready fetched
  rw [step_of_fetch ready fetched, ← immUWord_immUOf]
  constructor
  · intro op
    rw [decodeWord_lui op, exec_lui]
    exact ⟨_, rfl, wroteReg_result ..⟩
  · intro op
    rw [decodeWord_auipc op, exec_auipc]
    exact ⟨_, rfl, wroteReg_result ..⟩

end Sys2Proof.Machine
end

section
/-! PROOFS. The BranchUnit's selectors (42_control_transfer.md R100, R101), and the jump and branch words (R102 to R110) on
every word a step fetches. -/

namespace Sys2Proof.Machine

/-! ## The BranchUnit (R100, R101) -/

/-- Settles O16: the six supported selectors answer their predicates, and the two others raise. -/
theorem branchUnitDecidesItsPredicates : Obligations.BranchUnitDecidesItsPredicates := by
  intro selector x y
  exact ⟨fun not010 not011 => cond_supported not010 not011 x y, fun unsupported => cond_unsupported unsupported x y⟩

/-! ## Branches (R104 to R110) -/

/-- A step on a fetched BRANCH word is the BRANCH stage over the word's own fields. -/
theorem step_of_fetched_branch {s : State} {w : Word} (ready : s.status = .ready)
    (fetched : fetch Config.reference s = .ok w) (op : opcodeOf w = OpcodeClass.branch.bits) :
    step s = branchStage (funct3Of w) (rs1Of w) (rs2Of w) (immBOf w) s := by
  rw [step_of_fetch ready fetched, decodeWord_branch (lookupClass_of_opcode op), exec_decodeBranch]

/-- Settles O33: the word runs the BRANCH stage with its own fields, which writes the pc or, for an unsupported selector,
raises before any write. -/
theorem branchWordsRun : Obligations.BranchWordsRun := by
  intro s w ready fetched op
  have stage := step_of_fetched_branch ready fetched op
  refine ⟨fun not010 not011 => ?_, fun unsupported => ?_⟩
  · rw [stage]
    exact branchStage_wrote not010 not011 (rs1Of w) (rs2Of w) (immBOf w) s
  · have raised : step s = .fault (.invalidOperation (funct3Of w)) := stage.trans (branchStage_invalid unsupported ..)
    exact ⟨_, raised, rfl, hostStep_of_fault raised⟩

/-! ## Jumps (R102, R103) -/

section
variable {c : Config} {w : Word}

theorem decodeWord_jal (op : opcodeOf w = OpcodeClass.jal.bits) : decodeWord c w = .jal (rdOf w) (immJOf w) := by
  rw [decodeWord, lookupClass_of_opcode op]

theorem decodeWord_jalr (op : opcodeOf w = OpcodeClass.jalr.bits) :
    decodeWord c w = .jalr (rdOf w) (rs1Of w) (immIOf w) (funct3Of w) := by
  rw [decodeWord, lookupClass_of_opcode op]
end

/-- Settles O31: the word runs JAL with its own rd and offset, and `PC + 4` is linked as the pc is redirected. -/
theorem jalWordsRun : Obligations.JalWordsRun := by
  intro s w ready fetched op
  rw [step_of_fetch ready fetched, decodeWord_jal op, exec_jal]
  exact ⟨_, rfl, wroteReg_link ..⟩

/-- Settles O32: the word runs JALR with its own fields, the target formed from the registers before the link is written. -/
theorem jalrWordsRun : Obligations.JalrWordsRun := by
  intro s w ready fetched op
  rw [step_of_fetch ready fetched, decodeWord_jalr op, exec_jalr]
  exact ⟨_, rfl, wroteReg_link ..⟩

end Sys2Proof.Machine
end

section
/-! PROOFS. The ALU (43_integer_alu.md R115 to R122): its operations as numbers and bit by bit. -/

namespace Sys2Proof.Machine

/-! ## The operation each selector runs -/

section
variable (x y : Word) (alternate : Bool)

theorem arith_add : arith 0b000#3 x y false = x + y := rfl
theorem arith_sub : arith 0b000#3 x y true = x - y := rfl
theorem arith_slt : arith 0b010#3 x y alternate = boolWord (signedLess x y) := rfl
theorem arith_sltu : arith 0b011#3 x y alternate = boolWord (unsignedLess x y) := rfl
theorem arith_xor : arith 0b100#3 x y alternate = x ^^^ y := rfl
theorem arith_or : arith 0b110#3 x y alternate = x ||| y := rfl
theorem arith_and : arith 0b111#3 x y alternate = x &&& y := rfl

theorem arith_sll : arith 0b001#3 x y alternate = x <<< (y.toNat % 32) :=
  arith_eq_aluResult ..

theorem arith_srl : arith 0b101#3 x y false = x >>> (y.toNat % 32) :=
  arith_eq_aluResult ..
end

/-! ## The operations as numbers and bit by bit -/

/-- The words' sum is the integers' sum modulo 2^32. -/
theorem toNat_add_eq_emod (x y : Word) : ((x + y).toNat : Int) = ((x.toNat : Int) + y.toNat) % 2 ^ 32 := by
  rw [BitVec.toNat_add, Int.natCast_emod, Int.natCast_add, Int.natCast_pow, Int.cast_ofNat_Int]

/-- The words' difference is the integers' difference modulo 2^32: the borrow that keeps the minuend natural vanishes. -/
theorem toNat_sub_eq_emod (x y : Word) : ((x - y).toNat : Int) = ((x.toNat : Int) - y.toNat) % 2 ^ 32 := by
  have y_lt : y.toNat < 2 ^ 32 := y.isLt
  rw [BitVec.toNat_sub]
  omega

theorem toNat_boolWord (b : Bool) : (boolWord b).toNat = if b then 1 else 0 := by
  cases b
  · rfl
  · rfl

/-- The left shift multiplies by a power of two, modulo 2^32. -/
theorem toNat_shiftLeft_eq_mul (x : Word) (k : Nat) : (x <<< k).toNat = x.toNat * 2 ^ k % 2 ^ 32 := by
  rw [BitVec.toNat_shiftLeft, Nat.shiftLeft_eq]

/-- The logical right shift divides by a power of two. -/
theorem toNat_ushiftRight_eq_div (x : Word) (k : Nat) : (x >>> k).toNat = x.toNat / 2 ^ k := by
  rw [BitVec.toNat_ushiftRight, Nat.shiftRight_eq_div_pow]

/-- The arithmetic right shift takes each bit from `k` places higher, and bit 31 where there is none. -/
theorem getLsbD_sshiftRight_word (x : Word) (k : Nat) {i : Nat} (hi : i < 32) :
    (x.sshiftRight k).getLsbD i = if i + k < 32 then x.getLsbD (i + k) else x.getLsbD 31 := by
  have in_range : (!decide (32 ≤ i)) = true := by simp [hi]
  rw [BitVec.getLsbD_sshiftRight, BitVec.msb_eq_getLsbD_last, in_range, Bool.true_and, Nat.add_comm k i]

/-- Settles O15: each selector's operation, as a number or bit by bit. -/
theorem aluComputesItsEightSelectors : Obligations.AluComputesItsEightSelectors := by
  intro x y alternate
  refine ⟨?add, ?sub, ?sll, ?slt, ?sltu, ?xor, ?srl, ?sra, ?or, ?and⟩
  case add => rw [arith_add, toNat_add_eq_emod]
  case sub => rw [arith_sub, toNat_sub_eq_emod]
  case sll => rw [arith_sll, toNat_shiftLeft_eq_mul]
  case slt => simp only [arith_slt, toNat_boolWord, signedLess, decide_eq_true_eq]
  case sltu => simp only [arith_sltu, toNat_boolWord, unsignedLess, decide_eq_true_eq]
  case xor => intro i _; rw [arith_xor, BitVec.getLsbD_xor]
  case srl => rw [arith_srl, toNat_ushiftRight_eq_div]
  case sra => intro i hi; rw [arith_sra, getLsbD_sshiftRight_word x _ hi]
  case or => intro i _; rw [arith_or, BitVec.getLsbD_or]
  case and => intro i _; rw [arith_and, BitVec.getLsbD_and]

end Sys2Proof.Machine
end

section
/-! PROOFS. The load and store words (44_load_store.md R145 to R149, R151 to R153) on every word a step fetches. -/

namespace Sys2Proof.Machine

/-! ## Loads (R145 to R149) -/

/-- A step on a fetched LOAD word is the LOAD stage over the word's own fields. -/
theorem step_of_fetched_load {s : State} {w : Word} (ready : s.status = .ready)
    (fetched : fetch Config.reference s = .ok w) (op : opcodeOf w = OpcodeClass.load.bits) :
    step s = loadStage Config.reference (funct3Of w) (rdOf w) (rs1Of w) (immIOf w) s := by
  rw [step_of_fetch ready fetched, decodeWord_load (lookupClass_of_opcode op), exec_decodeLoad]

section
variable {c : Config} {s : State} {funct3 : BitVec 3} {width : Width} {signed : Bool} {rs1 : RegIdx} {imm : BitVec 12}
  (recognised : loadWidth funct3 = some (width, signed)) (rd : RegIdx)
include recognised

/-- Where MemRead answers a value, the LOAD stage writes it, extended, to rd. -/
theorem loadStage_of_memRead {v : Word} (read : s.mem.memRead c (effectiveAddress s rs1 imm) width = .ok v) :
    loadStage c funct3 rd rs1 imm s = .next (s.writeback (.result rd (extendLoad signed width v))) := by
  simp only [loadStage, recognised, read, retire]

/-- Where MemRead fails, the LOAD stage raises its fault. -/
theorem loadStage_of_memRead_error {f : Fault}
    (failed : s.mem.memRead c (effectiveAddress s rs1 imm) width = .error f) :
    loadStage c funct3 rd rs1 imm s = .fault f := by
  simp only [loadStage, recognised, failed, raise]
end

/-- LB extends by the sign of the low byte (R145). -/
theorem extendLoad_signed_byte : extendLoad true .byte = fun v => (v.extractLsb' 0 8).signExtend 32 :=
  funext fun _ => congrArg sext (BitVec.setWidth_eq_extractLsb' (by decide))

/-- LH extends by the sign of the low halfword (R146). -/
theorem extendLoad_signed_half : extendLoad true .half = fun v => (v.extractLsb' 0 16).signExtend 32 :=
  funext fun _ => congrArg sext (BitVec.setWidth_eq_extractLsb' (by decide))

/-- LW keeps the word (R147). -/
theorem extendLoad_signed_word : extendLoad true .word = fun v => v := rfl

/-- LBU puts zeros above the low byte (R148). -/
theorem extendLoad_unsigned_byte : extendLoad false .byte = fun v => (v.extractLsb' 0 8).setWidth 32 :=
  funext fun _ => congrArg zext (BitVec.setWidth_eq_extractLsb' (by decide))

/-- LHU puts zeros above the low halfword (R149). -/
theorem extendLoad_unsigned_half : extendLoad false .half = fun v => (v.extractLsb' 0 16).setWidth 32 :=
  funext fun _ => congrArg zext (BitVec.setWidth_eq_extractLsb' (by decide))

/-- Settles O36: the word runs the LOAD stage with its own fields, which goes on as MemRead answers; each funct3 has its width
and its extension. -/
theorem loadWordsRun : Obligations.LoadWordsRun := by
  intro s w ready fetched op ea loads
  have stage := step_of_fetched_load ready fetched op
  have runs {width : Width} {signed : Bool} (recognised : loadWidth (funct3Of w) = some (width, signed)) :
      loads width (extendLoad signed width) :=
    ⟨fun _ read => ⟨_, stage.trans (loadStage_of_memRead recognised _ read), wroteReg_result ..⟩,
      fun _ failed => stage.trans (loadStage_of_memRead_error recognised _ failed)⟩
  refine ⟨fun lb => ?_, fun lh => ?_, fun lw => ?_, fun lbu => ?_, fun lhu => ?_⟩
  · exact extendLoad_signed_byte ▸ runs (congrArg loadWidth lb)
  · exact extendLoad_signed_half ▸ runs (congrArg loadWidth lh)
  · exact extendLoad_signed_word ▸ runs (congrArg loadWidth lw)
  · exact extendLoad_unsigned_byte ▸ runs (congrArg loadWidth lbu)
  · exact extendLoad_unsigned_half ▸ runs (congrArg loadWidth lhu)

/-! ## Stores (R151 to R153) -/

/-- A step on a fetched STORE word is the STORE stage over the word's own fields. -/
theorem step_of_fetched_store {s : State} {w : Word} (ready : s.status = .ready)
    (fetched : fetch Config.reference s = .ok w) (op : opcodeOf w = OpcodeClass.store.bits) :
    step s = storeStage Config.reference (funct3Of w) (rs2Of w) (rs1Of w) (immSOf w) s := by
  rw [step_of_fetch ready fetched, decodeWord_store (lookupClass_of_opcode op), exec_decodeStore]

/-- Where the bytes to store do not all lie in the window, the STORE stage raises OutOfBounds. -/
theorem storeStage_of_not_inBounds {c : Config} {s : State} {funct3 : BitVec 3} {width : Width} {rs1 : RegIdx}
    {imm : BitVec 12} (recognised : storeWidth funct3 = some width)
    (outside : inBounds c (effectiveAddress s rs1 imm).toNat width.bytes = false) (rs2 : RegIdx) :
    storeStage c funct3 rs2 rs1 imm s = .fault (.outOfBounds (effectiveAddress s rs1 imm).toNat width.bytes) := by
  rcases storeStage_cases c recognised rs2 rs1 imm s with ⟨inside, _⟩ | ⟨_, raised⟩
  · cases inside.symm.trans outside
  · exact raised

/-- Settles O37: the word runs the STORE stage with its own fields, each funct3 with its width; the last clause is SW's own
(R55). -/
theorem storeWordsRun : Obligations.StoreWordsRun := by
  intro s w canonical ready fetched op ea stores
  have stage := step_of_fetched_store ready fetched op
  have runs {width : Width} (recognised : storeWidth (funct3Of w) = some width) : stores width.bytes := by
    constructor
    · intro inside
      rw [stage]
      exact storeStage_wrote recognised (rs2Of w) (rs1Of w) (immSOf w) canonical inside
    · intro outside
      exact ⟨_, stage.trans (storeStage_of_not_inBounds recognised outside (rs2Of w)), rfl⟩
  refine ⟨fun sb => ?_, fun sh => ?_, fun sw => ?_, fun sw next inside => ?_⟩
  · exact runs (congrArg storeWidth sb)
  · exact runs (congrArg storeWidth sh)
  · exact runs (congrArg storeWidth sw)
  · rw [stage, sw, ← exec_sw]
    exact storedInstructionIsFetchedNext s _ _ _ canonical (BitVec.eq_of_toNat_eq next) (next ▸ inside)

end Sys2Proof.Machine
end

section
/-! PROOFS. The no-ops of 45_misc_system.md (R156, R161), and that a step depends on nothing but the hardware (R160;
40_execution_cycle.md R85): every stage, run from two states of the same hardware, gives the same answer. -/

namespace Sys2Proof.Machine

/-! ## The no-ops (R156, R161) -/

/-- Settles O26: both instructions are a writeback of nothing but the pc. -/
theorem noOpsOnlyAdvanceThePc : Obligations.NoOpsOnlyAdvanceThePc := by
  intro s rd rs1 imm funct3
  exact ⟨⟨_, exec_fence s rd rs1 imm funct3, wrotePcOnly_none s⟩,
    ⟨_, exec_systemNop s rd rs1 imm funct3, wrotePcOnly_none s⟩⟩

theorem decodeWord_miscMem {c : Config} {w : Word} (h : lookupClass (opcodeOf w) = some .miscMem) :
    decodeWord c w = .fence (rdOf w) (rs1Of w) (immIOf w) (funct3Of w) := by
  rw [decodeWord, h]

/-- A SYSTEM word that neither test takes is the no-op of its own fields (R161). -/
theorem decodeSystem_of_noTest {c : Config} {w : Word} (sentinel : isSentinel c (funct3Of w) (immIOf w) = false)
    (ecall : isEcall c w = false) : decodeSystem c w = .systemNop (rdOf w) (rs1Of w) (immIOf w) (funct3Of w) := by
  simp only [decodeSystem, sentinel, ecall, Bool.false_eq_true, if_false]

/-- Settles O38: the word is a FENCE or a SYSTEM-NOP, both no-ops by O26. -/
theorem noOpWordsRun : Obligations.NoOpWordsRun := by
  intro s w ready fetched noOp
  have ⟨fence_runs, systemNop_runs⟩ := noOpsOnlyAdvanceThePc s (rdOf w) (rs1Of w) (immIOf w) (funct3Of w)
  rw [step_of_fetch ready fetched]
  rcases noOp with miscMem | ⟨system, sentinel, ecall⟩
  · rw [decodeWord_miscMem (lookupClass_of_opcode miscMem)]
    exact fence_runs
  · rw [decodeWord_system (lookupClass_of_opcode system), decodeSystem_of_noTest sentinel ecall]
    exact systemNop_runs

/-! ## What two states of the same hardware read -/

section
variable {s s' : State} (h : SameHardware s s')
include h

theorem SameHardware.nextPc : s'.nextPc = s.nextPc := by rw [State.nextPc, h.pc_eq, State.nextPc]

theorem SameHardware.effectiveAddress (rs1 : RegIdx) (imm : BitVec 12) :
    effectiveAddress s' rs1 imm = effectiveAddress s rs1 imm := by
  rw [Machine.effectiveAddress, h.regs, Machine.effectiveAddress]

theorem SameHardware.readWord (c : Config) (a : Word) : s'.mem.readWord c a = s.mem.readWord c a := by
  simp only [Memory.readWord, Memory.word, h.mem]

theorem SameHardware.memRead (c : Config) (a : Word) (width : Width) :
    s'.mem.memRead c a width = s.mem.memRead c a width := by
  simp only [Memory.memRead, h.readWord]

theorem SameHardware.fetch (c : Config) : fetch c s' = fetch c s := by
  rw [Machine.fetch, h.pc_eq, h.readWord, Machine.fetch]

theorem SameHardware.emitReport (r : Word) : SameHardware (s.emitReport r) (s'.emitReport r) :=
  ⟨h.regs, h.mem, h.pc_eq, h.status⟩

/-- The same bytes written into two memories that read alike leave memories that read alike. -/
theorem SameHardware.setMem_writeAll (canonical : s.mem.wf = true) (canonical' : s'.mem.wf = true) (a : Nat)
    (bytes : List Byte) : SameHardware (s.setMem (s.mem.writeAll a bytes)) (s'.setMem (s'.mem.writeAll a bytes)) where
  regs := h.regs
  mem addr := by
    rw [State.setMem_mem, Memory.read_writeAll canonical', h.mem addr, ← Memory.read_writeAll canonical,
      State.setMem_mem]
  pc_eq := h.pc_eq
  status := h.status

/-- Writeback reads the pc and writes the same to both. -/
theorem SameHardware.writeback (wb : Writeback) : SameHardware (s.writeback wb) (s'.writeback wb) where
  regs r := by cases wb <;> simp [h.regs, h.nextPc]
  mem a := by rw [State.writeback_mem, h.mem, State.writeback_mem]
  pc_eq := by cases wb <;> simp [h.nextPc]
  status := by rw [State.writeback_status, h.status, State.writeback_status]
end

/-! ## The answers to two states of the same hardware -/

/-- Where the bytes to store all lie in the window, the STORE stage writes them and retires. -/
theorem storeStage_of_inBounds {c : Config} {s : State} {funct3 : BitVec 3} {width : Width} {rs1 : RegIdx}
    {imm : BitVec 12} (recognised : storeWidth funct3 = some width)
    (inside : inBounds c (effectiveAddress s rs1 imm).toNat width.bytes = true) (rs2 : RegIdx) :
    storeStage c funct3 rs2 rs1 imm s =
      retire .none (s.setMem (s.mem.writeAll (effectiveAddress s rs1 imm).toNat
        (leBytes width.bytes (s.readReg rs2)))) := by
  rcases storeStage_cases c recognised rs2 rs1 imm s with ⟨_, stored⟩ | ⟨outside, _⟩
  · exact stored
  · cases inside.symm.trans outside

/-- Two answers, to `s` and to `s'`, that no program and no host can tell apart: the same fault, or next states of the same
hardware that return the same signal and add the same events. -/
inductive AnswersAlike (s s' : State) : Outcome → Outcome → Prop where
  | fault (f : Fault) : AnswersAlike s s' (.fault f) (.fault f)
  | next {t t' : State} (same : SameHardware t t') (signal : t'.signal = t.signal) (emitted : List Word)
      (reports : t.reports = s.reports ++ emitted) (reports' : t'.reports = s'.reports ++ emitted) :
      AnswersAlike s s' (.next t) (.next t')

section
variable {s s' : State}

theorem AnswersAlike.eq_fault {f : Fault} {answer : Outcome} (h : AnswersAlike s s' (.fault f) answer) :
    answer = .fault f := by
  cases h
  rfl

theorem AnswersAlike.exists_next {t : State} {answer : Outcome} (h : AnswersAlike s s' (.next t) answer) :
    ∃ t', answer = .next t' ∧ SameHardware t t' ∧ t'.signal = t.signal ∧
      ∃ emitted, t.reports = s.reports ++ emitted ∧ t'.reports = s'.reports ++ emitted := by
  cases h with
  | next same signal emitted reports reports' => exact ⟨_, rfl, same, signal, emitted, reports, reports'⟩

/-- A writeback that ends an instruction which has emitted nothing; `u` and `u'` are the states it is written to. -/
theorem retire_alike {u u' : State} (h : SameHardware u u') (reports : u.reports = s.reports)
    (reports' : u'.reports = s'.reports) (wb : Writeback) : AnswersAlike s s' (retire wb u) (retire wb u') :=
  .next (h.writeback wb) (by simp) [] (by simp [reports]) (by simp [reports'])

variable (h : SameHardware s s')
include h

theorem opStage_alike (selector : BitVec 3) (alternate : Bool) (rd rs1 rs2 : RegIdx) :
    AnswersAlike s s' (opStage selector alternate rd rs1 rs2 s) (opStage selector alternate rd rs1 rs2 s') := by
  rw [opStage, opStage, h.regs, h.regs]
  exact retire_alike h rfl rfl _

theorem opImmStage_alike (selector : BitVec 3) (alternate : Bool) (rd rs1 : RegIdx) (imm : Word) :
    AnswersAlike s s' (opImmStage selector alternate rd rs1 imm s) (opImmStage selector alternate rd rs1 imm s') := by
  rw [opImmStage, opImmStage, h.regs]
  exact retire_alike h rfl rfl _

theorem branchStage_alike (selector : BitVec 3) (rs1 rs2 : RegIdx) (offset : BitVec 13) :
    AnswersAlike s s' (branchStage selector rs1 rs2 offset s) (branchStage selector rs1 rs2 offset s') := by
  rw [branchStage, branchStage, h.regs, h.regs, branchTarget, branchTarget, h.pc_eq]
  cases cond selector (s.readReg rs1) (s.readReg rs2) with
  | error f => exact .fault f
  | ok taken =>
    cases taken
    case true => exact retire_alike h rfl rfl _
    case false => exact retire_alike h rfl rfl _

theorem loadStage_alike (c : Config) (funct3 : BitVec 3) (rd rs1 : RegIdx) (imm : BitVec 12) :
    AnswersAlike s s' (loadStage c funct3 rd rs1 imm s) (loadStage c funct3 rd rs1 imm s') := by
  rw [loadStage, loadStage, h.effectiveAddress]
  cases loadWidth funct3 with
  | none => exact .fault _
  | some p =>
    simp only [h.memRead]
    cases s.mem.memRead c (effectiveAddress s rs1 imm) p.1 with
    | error f => exact .fault f
    | ok v => exact retire_alike h rfl rfl _

/-- The one stage that writes memory, and so the one that needs its canonical form. -/
theorem storeStage_alike (canonical : s.mem.wf = true) (canonical' : s'.mem.wf = true) (c : Config) (funct3 : BitVec 3)
    (rs2 rs1 : RegIdx) (imm : BitVec 12) :
    AnswersAlike s s' (storeStage c funct3 rs2 rs1 imm s) (storeStage c funct3 rs2 rs1 imm s') := by
  cases width : storeWidth funct3 with
  | none =>
    rw [storeStage_invalid c width, storeStage_invalid c width]
    exact .fault _
  | some w =>
    cases inside : inBounds c (effectiveAddress s rs1 imm).toNat w.bytes with
    | false =>
      rw [storeStage_of_not_inBounds width inside,
        storeStage_of_not_inBounds width (by rwa [h.effectiveAddress]), h.effectiveAddress]
      exact .fault _
    | true =>
      rw [storeStage_of_inBounds width inside, storeStage_of_inBounds width (by rwa [h.effectiveAddress]),
        h.effectiveAddress, h.regs]
      exact retire_alike (s := s) (s' := s') (h.setMem_writeAll canonical canonical' _ _) rfl rfl .none

/-- The reported register reads the same, so both fail with the value or both add it to their events. -/
theorem ecallStage_alike (c : Config) : AnswersAlike s s' (ecallStage c s) (ecallStage c s') := by
  rw [ecallStage, ecallStage, h.regs]
  split
  · exact .fault _
  · exact .next ((h.emitReport _).writeback .none) rfl [_] rfl rfl

theorem stopStep_alike : AnswersAlike s s' (stopStep s) (stopStep s') :=
  .next ⟨h.regs, h.mem, h.pc_eq, h.status⟩ rfl [] (List.append_nil _).symm (List.append_nil _).symm

theorem systemWord_alike (w : Word) :
    AnswersAlike s s' (exec (decodeSystem Config.reference w) s) (exec (decodeSystem Config.reference w) s') := by
  rw [exec_decodeSystem, exec_decodeSystem]
  split_ifs
  · exact stopStep_alike h
  · exact ecallStage_alike h _
  · exact retire_alike h rfl rfl .none

variable (canonical : s.mem.wf = true) (canonical' : s'.mem.wf = true)
include canonical canonical'

/-- Any word's instruction answers alike, by the word's class. -/
theorem exec_decodeWord_alike (w : Word) :
    AnswersAlike s s' (exec (decodeWord Config.reference w) s) (exec (decodeWord Config.reference w) s') := by
  cases cls : lookupClass (opcodeOf w) with
  | none => rw [decodeWord_of_noClass cls]; exact .fault _
  | some k =>
    have op := bits_of_lookupClass cls
    cases k
    case lui => rw [decodeWord_lui op]; exact retire_alike h rfl rfl _
    case auipc =>
      rw [decodeWord_auipc op, exec_auipc, exec_auipc, upperTarget, upperTarget, h.pc_eq]
      exact retire_alike h rfl rfl _
    case jal =>
      rw [decodeWord_jal op, exec_jal, exec_jal, jalTarget, jalTarget, h.pc_eq]
      exact retire_alike h rfl rfl _
    case jalr =>
      rw [decodeWord_jalr op, exec_jalr, exec_jalr, jalrTarget, jalrTarget, h.regs]
      exact retire_alike h rfl rfl _
    case branch =>
      rw [decodeWord_branch cls, exec_decodeBranch, exec_decodeBranch]
      exact branchStage_alike h _ _ _ _
    case opImm =>
      rw [decodeWord_opImm cls, exec_decodeOpImm, exec_decodeOpImm]
      exact opImmStage_alike h _ _ _ _ _
    case op =>
      rw [decodeWord_op cls, exec_decodeOp, exec_decodeOp]
      exact opStage_alike h _ _ _ _ _
    case load =>
      rw [decodeWord_load cls, exec_decodeLoad, exec_decodeLoad]
      exact loadStage_alike h _ _ _ _ _
    case store =>
      rw [decodeWord_store cls, exec_decodeStore, exec_decodeStore]
      exact storeStage_alike h canonical canonical' _ _ _ _ _
    case miscMem => rw [decodeWord_miscMem cls]; exact retire_alike h rfl rfl .none
    case system => rw [decodeWord_system cls]; exact systemWord_alike h w

/-- A step answers alike: the same latched fault, the same failed fetch, or the same word's instruction. -/
theorem step_alike : AnswersAlike s s' (step s) (step s') := by
  cases latch : s.status with
  | faulted f =>
    rw [step_of_faulted latch, step_of_faulted (h.status.trans latch)]
    exact .fault f
  | ready =>
    have latch' := h.status.trans latch
    cases fetched : fetch Config.reference s with
    | error f =>
      rw [step_of_fetch_error latch fetched, step_of_fetch_error latch' ((h.fetch _).trans fetched)]
      exact .fault f
    | ok w =>
      rw [step_of_fetch latch fetched, step_of_fetch latch' ((h.fetch _).trans fetched)]
      exact exec_decodeWord_alike h canonical canonical' w
end

/-- Settles O50: the two steps answer alike, and the statement's clauses are the two ways to do so. -/
theorem stepDependsOnlyOnTheHardware : Obligations.StepDependsOnlyOnTheHardware := by
  intro s s' canonical canonical' h
  have alike : AnswersAlike s s' (step s) (step s') := step_alike h canonical canonical'
  exact ⟨fun f raised => (raised ▸ alike).eq_fault, fun t completed => (completed ▸ alike).exists_next⟩

end Sys2Proof.Machine
end

section
/-! PROOFS. The sentinel's Stop, and that no other word's step returns it (60_exceptions.md R167; 45_misc_system.md R157). -/

namespace Sys2Proof.Machine

/-- The host is answered Stop exactly by a step that completes and returns Stop (40_execution_cycle.md R96). -/
theorem hostStep_eq_stop_iff {s : State} : (hostStep s).2 = .stop ↔ ∃ t, step s = .next t ∧ t.signal = .stop := by
  rw [hostStep]
  cases step s with
  | next t => cases signal : t.signal <;> simp [signal]
  | fault f => simp
  | refused r => simp

section
variable {s t : State} {w : Word}

/-- A completed step that returns Stop ran the sentinel: every other one ends in a writeback, which returns Continue. -/
theorem StepDid.sentinel_of_stop (h : StepDid w s t) (stop : t.signal = .stop) :
    opcodeOf w = OpcodeClass.system.bits ∧ isSentinel Config.reference (funct3Of w) (immIOf w) = true := by
  cases h with
  | result | jal | jalr | taken | notTaken | store | noOp | report =>
    cases (State.writeback_signal _ _).symm.trans stop
  | stop op sentinel => exact ⟨op, sentinel⟩

/-- A step on a fetched sentinel stops (45_misc_system.md R157). -/
theorem step_of_fetched_sentinel (ready : s.status = .ready) (fetched : fetch Config.reference s = .ok w)
    (op : opcodeOf w = OpcodeClass.system.bits)
    (sentinel : isSentinel Config.reference (funct3Of w) (immIOf w) = true) : step s = stopStep s := by
  rw [step_of_fetch ready fetched, decodeWord_system (lookupClass_of_opcode op), exec_decodeSystem, if_pos sentinel]
end

/-- Settles O46: only the sentinel's step returns Stop, and it always does. -/
theorem onlyTheSentinelStops : Obligations.OnlyTheSentinelStops := by
  intro s w ready fetched
  rw [hostStep_eq_stop_iff]
  constructor
  · rintro ⟨t, completed, stop⟩
    obtain ⟨w', _, fetched', did⟩ := step_did completed
    obtain rfl : w = w' := Except.ok.inj (fetched.symm.trans fetched')
    exact did.sentinel_of_stop stop
  · rintro ⟨op, sentinel⟩
    exact ⟨_, step_of_fetched_sentinel ready fetched op sentinel, rfl⟩

end Sys2Proof.Machine
end

section
/-! PROOFS. The encoder and the decoder against each other (30_encoding.md sections 1 to 5), the opcode table against
the decoder (section 3), and the immediates as weighted bits (section 2). -/

namespace Sys2Proof.Machine

/-! ## Decoding what the encoder wrote -/

/-- The four bytes of a word decode to the word's instruction, and the bytes after them are left. -/
theorem decodeBytes_leBytes (c : Config) (w : Word) (rest : List Byte) :
    decodeBytes c (leBytes 4 w ++ rest) = .ok (decodeWord c w, rest) := by
  have bytes : leBytes 4 w = [w.extractLsb' 0 8, w.extractLsb' 8 8, w.extractLsb' 16 8, w.extractLsb' 24 8] := rfl
  simp only [bytes, List.cons_append, List.nil_append, decodeBytes, leWord_bytes]

/-- Decoding the word of a well-formed instruction gives the instruction. -/
theorem decodeWord_encodeWord {c : Config} {i : Instr} (wf : i.wf c = true) : decodeWord c (encodeWord c i) = i := by
  cases i
  case lui | auipc | jalr | fence =>
    simp [encodeWord, decodeWord_lui, decodeWord_auipc, decodeWord_jalr, decodeWord_miscMem]
  case jal rd offset =>
    have even : offset.getLsbD 0 = false := by simpa [Instr.wf] using wf
    simp [encodeWord, decodeWord_jal, immJOf_jWord _ _ _ even]
  case beq rs1 rs2 offset | bne rs1 rs2 offset | blt rs1 rs2 offset | bge rs1 rs2 offset | bltu rs1 rs2 offset
      | bgeu rs1 rs2 offset | branchInvalid010 rs1 rs2 offset | branchInvalid011 rs1 rs2 offset =>
    have even : offset.getLsbD 0 = false := by simpa [Instr.wf] using wf
    simp [encodeWord, decodeWord_branch, decodeBranch, immBOf_bWord _ _ _ _ _ even]
  case sub | sll | slt | sltu | xor | sra | or | and => simp [encodeWord, decodeWord_op, decodeOp]
  case add rd rs1 rs2 funct7 | srl rd rs1 rs2 funct7 =>
    have normal : funct7 ≠ altFunct7 := by simpa [Instr.wf] using wf
    simp [encodeWord, decodeWord_op, decodeOp, normal]
  case addi | slti | sltiu | xori | ori | andi | slli | srai => simp [encodeWord, decodeWord_opImm, decodeOpImm]
  case srli rd rs1 shamt funct7 =>
    have normal : funct7 ≠ altFunct7 := by simpa [Instr.wf] using wf
    simp [encodeWord, decodeWord_opImm, decodeOpImm, normal]
  case lb | lh | lw | lbu | lhu | loadInvalid011 | loadInvalid110 | loadInvalid111 =>
    simp [encodeWord, decodeWord_load, decodeLoad]
  case sb | sh | sw | storeInvalid011 | storeInvalid100 | storeInvalid101 | storeInvalid110 | storeInvalid111 =>
    simp [encodeWord, decodeWord_store, decodeStore]
  case sentinel rd rs1 => simp [encodeWord, decodeWord_system, decodeSystem, isSentinel]
  case ecall rd rs1 imm =>
    obtain ⟨noSentinel, ecall⟩ : isSentinel c 0b000#3 imm = false ∧
      isEcall c (iWord imm rs1 0b000#3 rd .system) = true := by simpa [Instr.wf] using wf
    simp [encodeWord, decodeWord_system, decodeSystem, noSentinel, ecall]
  case systemNop rd rs1 imm funct3 =>
    obtain ⟨noSentinel, noEcall⟩ : isSentinel c funct3 imm = false ∧
      isEcall c (iWord imm rs1 funct3 rd .system) = false := by simpa [Instr.wf] using wf
    simp [encodeWord, decodeWord_system, decodeSystem, noSentinel, noEcall]
  case decodeFailure w =>
    have noClass : lookupClass (opcodeOf w) = none := by simpa [Instr.wf] using wf
    exact decodeWord_of_noClass noClass

/-- Settles O1: the four bytes decode to what the encoded word decodes to, which is the instruction. -/
theorem decodeOfEncodeIsTheInstruction : Obligations.DecodeOfEncodeIsTheInstruction := by
  intro c i wf rest
  rw [decodeBytes_leBytes, decodeWord_encodeWord wf]

/-! ## Encoding what the decoder read -/

/-- `i` is a well-formed instruction of the word `w`. -/
def Encodes (c : Config) (i : Instr) (w : Word) : Prop := i.wf c = true ∧ encodeWord c i = w

/-- An environment call's funct3 is 000 under either reading of the test (45_misc_system.md R158). -/
theorem funct3Of_of_isEcall {c : Config} {w : Word} (h : isEcall c w = true) : funct3Of w = 0b000#3 := by
  unfold isEcall at h
  cases mode : c.ecallMatch <;> rw [mode] at h
  · exact eq_of_beq h
  · obtain rfl : w = 0x00000073#32 := eq_of_beq h
    rfl

section
variable (c : Config) {w : Word}

theorem decodeBranch_encodes (op : opcodeOf w = OpcodeClass.branch.bits) : Encodes c (decodeBranch w) w := by
  have whole := bWord_fields op
  unfold decodeBranch
  rcases selector_cases (funct3Of w) with f | f | f | f | f | f | f | f <;> rw [f] at whole ⊢ <;>
    exact ⟨by simp [Instr.wf], whole⟩

theorem decodeLoad_encodes (op : opcodeOf w = OpcodeClass.load.bits) : Encodes c (decodeLoad w) w := by
  have whole := iWord_fields op
  unfold decodeLoad
  rcases selector_cases (funct3Of w) with f | f | f | f | f | f | f | f <;> rw [f] at whole ⊢ <;>
    exact ⟨rfl, whole⟩

theorem decodeStore_encodes (op : opcodeOf w = OpcodeClass.store.bits) : Encodes c (decodeStore w) w := by
  have whole := sWord_fields op
  unfold decodeStore
  rcases selector_cases (funct3Of w) with f | f | f | f | f | f | f | f <;> rw [f] at whole ⊢ <;>
    exact ⟨rfl, whole⟩

theorem decodeOp_encodes (op : opcodeOf w = OpcodeClass.op.bits) : Encodes c (decodeOp w) w := by
  have whole := rWord_fields op
  unfold decodeOp
  by_cases alternate : funct7Of w = altFunct7
  · rw [alternate] at whole ⊢
    rcases selector_cases (funct3Of w) with f | f | f | f | f | f | f | f <;> rw [f] at whole ⊢ <;>
      exact ⟨rfl, whole⟩
  · simp only [if_neg alternate]
    rcases selector_cases (funct3Of w) with f | f | f | f | f | f | f | f <;> rw [f] at whole ⊢ <;>
      exact ⟨by simp [Instr.wf, alternate], whole⟩

theorem decodeOpImm_encodes (op : opcodeOf w = OpcodeClass.opImm.bits) : Encodes c (decodeOpImm w) w := by
  have shift := rWord_fields op
  have whole := iWord_fields op
  unfold decodeOpImm
  by_cases alternate : funct7Of w = altFunct7
  · rw [alternate] at shift ⊢
    rcases selector_cases (funct3Of w) with f | f | f | f | f | f | f | f <;> rw [f] at shift whole ⊢ <;>
      exact ⟨rfl, by assumption⟩
  · simp only [if_neg alternate]
    rcases selector_cases (funct3Of w) with f | f | f | f | f | f | f | f <;> rw [f] at shift whole ⊢ <;>
      exact ⟨by simp [Instr.wf, alternate], by assumption⟩

theorem decodeSystem_encodes (op : opcodeOf w = OpcodeClass.system.bits) : Encodes c (decodeSystem c w) w := by
  have whole := iWord_fields op
  unfold decodeSystem
  split_ifs with sentinel ecall
  · obtain ⟨f3, imm⟩ : funct3Of w = c.sentinelFunct3 ∧ immIOf w = c.sentinelImm := by
      simpa [isSentinel] using sentinel
    exact ⟨rfl, by rw [encodeWord, ← f3, ← imm, whole]⟩
  · rw [funct3Of_of_isEcall ecall] at whole sentinel
    exact ⟨by simp [Instr.wf, whole, sentinel, ecall], whole⟩
  · exact ⟨by simp [Instr.wf, whole, sentinel, ecall], whole⟩

/-- Every word's instruction is well-formed and encodes to the word, by the word's class. -/
theorem decodeWord_encodes (w : Word) : Encodes c (decodeWord c w) w := by
  cases cls : lookupClass (opcodeOf w) with
  | none => rw [decodeWord_of_noClass cls]; exact ⟨by simp [Instr.wf, cls], rfl⟩
  | some k =>
    have op : opcodeOf w = k.bits := bits_of_lookupClass cls
    cases k
    case branch => rw [decodeWord_branch cls]; exact decodeBranch_encodes c op
    case load => rw [decodeWord_load cls]; exact decodeLoad_encodes c op
    case store => rw [decodeWord_store cls]; exact decodeStore_encodes c op
    case op => rw [decodeWord_op cls]; exact decodeOp_encodes c op
    case opImm => rw [decodeWord_opImm cls]; exact decodeOpImm_encodes c op
    case system => rw [decodeWord_system cls]; exact decodeSystem_encodes c op
    case lui | auipc => rw [decodeWord, cls]; exact ⟨rfl, uWord_fields op⟩
    case jal => rw [decodeWord_jal op]; exact ⟨by simp [Instr.wf], jWord_fields op⟩
    case jalr | miscMem => rw [decodeWord, cls]; exact ⟨rfl, iWord_fields op⟩
end

/-- Settles O2: the decoder reads off the word every field that the encoder puts back. -/
theorem encodeOfDecodeIsTheWord : Obligations.EncodeOfDecodeIsTheWord :=
  fun c w => decodeWord_encodes c w

/-! ## The opcode table -/

/-- The two words agree on everything that a row of opcode_table.json and the choice of a constructor depend on. -/
structure SelectsAlike (w w' : Word) : Prop where
  opcode : opcodeOf w = opcodeOf w'
  funct3 : funct3Of w = funct3Of w'
  alternate : funct7Of w = altFunct7 ↔ funct7Of w' = altFunct7
  sentinel : immIOf w = Config.reference.sentinelImm ↔ immIOf w' = Config.reference.sentinelImm

/-- The rows' masks: none, the opcode, the opcode and funct3, and beside those the alternate funct7 or the sentinel's
immediate. -/
theorem opcodeTable_masks : ∀ r ∈ opcodeTable,
    r.mask = 0#32 ∨ r.mask = 0x0000007F#32 ∨ r.mask = 0x0000707F#32 ∨
      (r.mask = 0xFE00707F#32 ∧ ∃ funct3, ∃ k ∈ opcodeClasses, r.pattern = rWord altFunct7 0#5 0#5 funct3 0#5 k) ∨
      (r.mask = 0xFFF0707F#32 ∧ ∃ funct3, ∃ k ∈ opcodeClasses,
        r.pattern = iWord Config.reference.sentinelImm 0#5 funct3 0#5 k) := by
  decide

theorem bestRow_congr {w w' : Word} {rows : List OpcodeRow}
    (h : ∀ r ∈ rows, (w &&& r.mask = r.pattern ↔ w' &&& r.mask = r.pattern)) : bestRow w rows = bestRow w' rows := by
  induction rows with
  | nil => rfl
  | cons r rest ih =>
    simp only [bestRow, h r List.mem_cons_self, ih fun q hq => h q (List.mem_cons_of_mem _ hq)]

section
variable {w w' : Word} (h : SelectsAlike w w')
include h

theorem SelectsAlike.tableRow_eq : tableRow w = tableRow w' := by
  refine bestRow_congr fun r hr => ?_
  rcases opcodeTable_masks r hr with m | m | m | ⟨m, funct3, k, _, p⟩ | ⟨m, funct3, k, _, p⟩ <;> rw [m]
  · rw [BitVec.and_zero, BitVec.and_zero]
  · rw [and_mask_opcode, and_mask_opcode, h.opcode]
  · rw [and_mask_funct3, and_mask_funct3, h.opcode, h.funct3]
  · rw [p, and_mask_funct7_iff, and_mask_funct7_iff, h.opcode, h.funct3, h.alternate]
  · rw [p, and_mask_immI_iff, and_mask_immI_iff, h.opcode, h.funct3, h.sentinel]

theorem SelectsAlike.mnemonic_eq :
    mnemonicOf (decodeWord Config.reference w) = mnemonicOf (decodeWord Config.reference w') := by
  unfold decodeWord
  rw [h.opcode]
  cases lookupClass (opcodeOf w') with
  | none => rfl
  | some k =>
    cases k
    case lui | auipc | jal | jalr | miscMem => rfl
    case branch =>
      simp only [decodeBranch, h.funct3]
      split <;> rfl
    case load =>
      simp only [decodeLoad, h.funct3]
      split <;> rfl
    case store =>
      simp only [decodeStore, h.funct3]
      split <;> rfl
    case op =>
      by_cases alternate : funct7Of w' = altFunct7 <;>
        simp only [decodeOp, h.funct3, h.alternate, alternate, if_true, if_false] <;> split <;> rfl
    case opImm =>
      by_cases alternate : funct7Of w' = altFunct7 <;>
        simp only [decodeOpImm, h.funct3, h.alternate, alternate, if_true, if_false] <;> split <;> rfl
    case system =>
      have sentinel : isSentinel Config.reference (funct3Of w) (immIOf w) =
          isSentinel Config.reference (funct3Of w') (immIOf w') := by
        rw [isSentinel, isSentinel, h.funct3, Bool.eq_iff_iff]
        simp only [Bool.and_eq_true, beq_iff_eq, h.sentinel]
      have ecall : isEcall Config.reference w = isEcall Config.reference w' := congrArg (· == 0b000#3) h.funct3
      simp only [decodeSystem, sentinel, ecall]
      split_ifs <;> rfl
end

/-- The upper seven bits of the I-immediate are funct7. -/
theorem immIOf_upper (w : Word) : (immIOf w).extractLsb' 5 7 = funct7Of w := by
  rw [immIOf_eq]
  exact BitVec.extractLsb'_append_eq_left

/-- The I-immediates that stand for all others: neither form, the alternate form's, the sentinel's. -/
def standardImmediates : List (BitVec 12) := [0x000#12, 0x400#12, 0xC00#12]

section
variable {w : Word} {k : OpcodeClass} (op : opcodeOf w = k.bits)
include op

theorem selectsAlike_iWord {imm : BitVec 12} (alternate : funct7Of w = altFunct7 ↔ imm.extractLsb' 5 7 = altFunct7)
    (sentinel : immIOf w = 0xC00#12 ↔ imm = 0xC00#12) : SelectsAlike w (iWord imm 0#5 (funct3Of w) 0#5 k) where
  opcode := by rw [opcodeOf_iWord, op]
  funct3 := by rw [funct3Of_iWord]
  alternate := by rw [alternate, ← immIOf_upper (iWord ..), immIOf_iWord]
  sentinel := by rw [immIOf_iWord]; exact sentinel

/-- Every word of a class selects like one of the class's words of the same funct3 with a standard immediate. -/
theorem exists_selectsAlike : ∃ imm ∈ standardImmediates, SelectsAlike w (iWord imm 0#5 (funct3Of w) 0#5 k) := by
  by_cases sentinel : immIOf w = 0xC00#12
  · have funct7 : funct7Of w = 0b1100000#7 := by rw [← immIOf_upper, sentinel]; rfl
    exact ⟨0xC00#12, by decide, selectsAlike_iWord op (by rw [funct7]; decide) (by simp [sentinel])⟩
  · by_cases alternate : funct7Of w = altFunct7
    · exact ⟨0x400#12, by decide, selectsAlike_iWord op (by rw [alternate]; decide) (by simp [sentinel])⟩
    · exact ⟨0x000#12, by decide, selectsAlike_iWord op (iff_of_false alternate (by decide)) (by simp [sentinel])⟩
end

/-- The table and the decoder agree on the words of each class and funct3 with a standard immediate. -/
theorem tableRow_of_standard (k : OpcodeClass) : ∀ imm ∈ standardImmediates, ∀ funct3,
    (tableRow (iWord imm 0#5 funct3 0#5 k)).map OpcodeRow.mnemonic =
      some (mnemonicOf (decodeWord Config.reference (iWord imm 0#5 funct3 0#5 k))) := by
  simp only [standardImmediates, List.forall_mem_cons, List.not_mem_nil, false_imp_iff, implies_true, and_true]
  cases k <;> refine ⟨?_, ?_, ?_⟩ <;> decide

/-- Every row but the last tests the opcode, for one of the eleven. -/
theorem opcodeTable_opcodes : ∀ r ∈ opcodeTable.dropLast,
    opcodeOf r.mask = BitVec.allOnes 7 ∧ opcodeOf r.pattern ∈ opcodeClasses.map OpcodeClass.bits := by
  decide

/-- A word of no class matches the last row alone (30_encoding.md R69). -/
theorem tableRow_of_noClass {w : Word} (noClass : lookupClass (opcodeOf w) = none) :
    tableRow w = some ⟨"DECODE-FAILURE", 0x00000000#32, 0x00000000#32, 3⟩ := by
  refine bestRow_last (rows := opcodeTable.dropLast) (fun r hr hit => ?_) BitVec.and_zero
  obtain ⟨tested, known⟩ := opcodeTable_opcodes r hr
  have op : opcodeOf w = opcodeOf r.pattern := (fields_of_and w hit).1 tested
  exact lookupClass_eq_none_iff.1 noClass (op ▸ known)

/-- Settles O3: a word of a class gets the row and the mnemonic of a standard word, any other the last row. -/
theorem decoderPicksTheOpcodeTableRow : Obligations.DecoderPicksTheOpcodeTableRow := by
  intro w
  cases cls : lookupClass (opcodeOf w) with
  | none => rw [tableRow_of_noClass cls, decodeWord_of_noClass cls]; rfl
  | some k =>
    obtain ⟨imm, standard, alike⟩ := exists_selectsAlike (bits_of_lookupClass cls)
    rw [alike.tableRow_eq, alike.mnemonic_eq]
    exact tableRow_of_standard k imm standard (funct3Of w)

/-! ## Words written out, and the immediates -/

/-- Settles O4: each of the sixteen words is decoded by evaluation. -/
theorem writtenOutWordsDecode : Obligations.WrittenOutWordsDecode := by
  unfold Obligations.WrittenOutWordsDecode
  decide

theorem toNat_extractLsb'_eq (w : Word) (lo len : Nat) : (w.extractLsb' lo len).toNat = w.toNat / 2 ^ lo % 2 ^ len := by
  rw [BitVec.extractLsb'_toNat, Nat.shiftRight_eq_div_pow]

theorem toNat_append_eq {m n : Nat} (x : BitVec m) (y : BitVec n) : (x ++ y).toNat = x.toNat * 2 ^ n + y.toNat := by
  rw [BitVec.toNat_append, ← Nat.shiftLeft_add_eq_or_of_lt y.isLt, Nat.shiftLeft_eq]

/-- A signed value is the bits below the top one as a number, the top bit counted negatively. -/
theorem toInt_eq_sub_top {n : Nat} (v : BitVec (n + 1)) :
    v.toInt = ((v.toNat % 2 ^ n : Nat) : Int) - 2 ^ n * (v.toNat / 2 ^ n : Nat) := by
  have v_lt : v.toNat < 2 ^ n * 2 := v.isLt
  have split : 2 ^ n * (v.toNat / 2 ^ n) + v.toNat % 2 ^ n = v.toNat := Nat.div_add_mod ..
  have weight : (2 : Int) ^ n = ((2 ^ n : Nat) : Int) := (Nat.cast_pow 2 n).symm
  rw [BitVec.toInt_eq_toNat_cond, Nat.pow_succ, weight]
  split_ifs with small
  · have top : v.toNat / 2 ^ n = 0 := Nat.div_eq_of_lt (by omega)
    rw [top] at split ⊢
    omega
  · have top : v.toNat / 2 ^ n = 1 := Nat.div_eq_of_lt_le (by omega) (by omega)
    rw [top] at split ⊢
    omega

section
variable (w : Word)

theorem toInt_immIOf :
    (immIOf w).toInt = ((w.toNat / 2 ^ 20 % 2 ^ 11 : Nat) : Int) - 2 ^ 11 * (w.toNat / 2 ^ 31 : Nat) := by
  have w_lt : w.toNat < 2 ^ 32 := w.isLt
  rw [toInt_eq_sub_top (n := 11), immIOf, toNat_extractLsb'_eq]
  omega

theorem toInt_immSOf :
    (immSOf w).toInt =
      ((w.toNat / 2 ^ 25 % 2 ^ 6 * 2 ^ 5 + w.toNat / 2 ^ 7 % 2 ^ 5 : Nat) : Int) - 2 ^ 11 * (w.toNat / 2 ^ 31 : Nat) := by
  have w_lt : w.toNat < 2 ^ 32 := w.isLt
  have upper_lt : w.toNat / 2 ^ 25 < 2 ^ 7 := by omega
  have top : w.toNat / 2 ^ 31 = w.toNat / 2 ^ 25 / 2 ^ 6 := by omega
  rw [toInt_eq_sub_top (n := 11), immSOf, top]
  simp only [toNat_append_eq, toNat_extractLsb'_eq, Nat.mod_eq_of_lt upper_lt]
  omega

theorem toInt_immBOf :
    (immBOf w).toInt =
      ((w.toNat / 2 ^ 7 % 2 * 2 ^ 11 + w.toNat / 2 ^ 25 % 2 ^ 6 * 2 ^ 5 + w.toNat / 2 ^ 8 % 2 ^ 4 * 2 : Nat) : Int) -
        2 ^ 12 * (w.toNat / 2 ^ 31 : Nat) := by
  have w_lt : w.toNat < 2 ^ 32 := w.isLt
  rw [toInt_eq_sub_top (n := 12), immBOf]
  simp only [toNat_append_eq, toNat_extractLsb'_eq, BitVec.toNat_ofNat]
  omega

theorem toInt_immJOf :
    (immJOf w).toInt =
      ((w.toNat / 2 ^ 12 % 2 ^ 8 * 2 ^ 12 + w.toNat / 2 ^ 20 % 2 * 2 ^ 11 + w.toNat / 2 ^ 21 % 2 ^ 10 * 2 : Nat) : Int) -
        2 ^ 20 * (w.toNat / 2 ^ 31 : Nat) := by
  have w_lt : w.toNat < 2 ^ 32 := w.isLt
  rw [toInt_eq_sub_top (n := 20), immJOf]
  simp only [toNat_append_eq, toNat_extractLsb'_eq, BitVec.toNat_ofNat]
  omega

theorem toNat_immUWord_immUOf : (immUWord (immUOf w)).toNat = w.toNat / 2 ^ 12 * 2 ^ 12 := by
  have w_lt : w.toNat < 2 ^ 32 := w.isLt
  simp only [immUWord, immUOf, toNat_append_eq, toNat_extractLsb'_eq, BitVec.toNat_ofNat]
  omega
end

theorem immBWord_toInt (offset : BitVec 13) : (immBWord offset).toInt = offset.toInt :=
  BitVec.toInt_signExtend_of_le (by decide)

theorem immJWord_toInt (offset : BitVec 21) : (immJWord offset).toInt = offset.toInt :=
  BitVec.toInt_signExtend_of_le (by decide)

/-- Settles O5: extension keeps the signed value, and each immediate is its pieces side by side. -/
theorem immediatesAreTheirWeightedBits : Obligations.ImmediatesAreTheirWeightedBits := by
  intro w
  exact ⟨(imm12Word_toInt _).trans (toInt_immIOf w), (imm12Word_toInt _).trans (toInt_immSOf w),
    (immBWord_toInt _).trans (toInt_immBOf w), toNat_immUWord_immUOf w, (immJWord_toInt _).trans (toInt_immJOf w)⟩

end Sys2Proof.Machine
end

section
/-! PROOFS. The narrow reads of the window (20_memory.md R42), and that a canonical memory is determined by what it reads. -/

namespace Sys2Proof.Machine

/-- Settles O12: a read is `readWord`'s answer under the width's mask, and every width's check is the one of four bytes. -/
theorem narrowReadsAreCheckedOverFourBytes : Obligations.NarrowReadsAreCheckedOverFourBytes := by
  intro c m a
  have masked (width : Width) : m.memRead c a width = (m.readWord c a).map fun v => v &&& width.mask := by
    unfold Memory.memRead
    cases m.readWord c a <;> rfl
  refine ⟨masked .byte, masked .half, m.memRead_word c a, fun beyond width => ?_⟩
  rcases Memory.memRead_cases c m a width with ⟨inside, _⟩ | ⟨_, failed⟩
  · have := (inBounds_iff.1 inside).2
    omega
  · exact failed

/-! ## The canonical form -/

theorem Memory.read_cons_self (k : Nat) (v : Byte) (rest : Memory) : Memory.read ((k, v) :: rest) k = v := if_pos rfl

theorem Memory.read_cons_of_ne {k a : Nat} (ne : a ≠ k) (v : Byte) (rest : Memory) :
    Memory.read ((k, v) :: rest) a = rest.read a :=
  if_neg ne

section
variable {m m' : Memory} {k k' : Nat} {v v' : Byte}

/-- A canonical memory that reads as 0 everywhere lists nothing. -/
theorem Memory.eq_nil_of_read (canonical : m.wf = true) (zero : ∀ a, m.read a = 0#8) : m = [] := by
  cases m with
  | nil => rfl
  | cons cell rest =>
    obtain ⟨k, v⟩ := cell
    have listed : v = 0#8 := (Memory.read_cons_self k v rest).symm.trans (zero k)
    exact absurd listed (Memory.wf_cons.1 canonical).1

/-- A canonical memory lists no lower address than one that reads alike. -/
theorem Memory.head_le_of_read (canonical : Memory.wf ((k, v) :: m) = true) (canonical' : Memory.wf ((k', v') :: m') = true)
    (alike : ∀ a, Memory.read ((k, v) :: m) a = Memory.read ((k', v') :: m') a) : k' ≤ k := by
  obtain ⟨nonzero, _, _⟩ := Memory.wf_cons.1 canonical
  obtain ⟨_, rising', _⟩ := Memory.wf_cons.1 canonical'
  by_contra below
  have unlisted : ∀ cell ∈ (k', v') :: m', k < cell.1 := by
    refine List.forall_mem_cons.2 ⟨by omega, fun cell hc => ?_⟩
    have := rising' cell hc
    omega
  exact nonzero (by rw [← Memory.read_cons_self k v m, alike k, Memory.read_of_below unlisted])
end

/-- Canonical memories that read alike are equal: they have the same first cell, and without it they read alike again. -/
theorem Memory.eq_of_read {m m' : Memory} (canonical : m.wf = true) (canonical' : m'.wf = true)
    (alike : ∀ a, m.read a = m'.read a) : m = m' := by
  induction m generalizing m' with
  | nil => exact (Memory.eq_nil_of_read canonical' fun a => (alike a).symm).symm
  | cons cell rest ih =>
    cases m' with
    | nil => exact Memory.eq_nil_of_read canonical alike
    | cons cell' rest' =>
      obtain ⟨k, v⟩ := cell
      obtain ⟨k', v'⟩ := cell'
      obtain rfl : k = k' := Nat.le_antisymm
        (Memory.head_le_of_read canonical' canonical fun a => (alike a).symm)
        (Memory.head_le_of_read canonical canonical' alike)
      obtain rfl : v = v' := by simpa only [Memory.read_cons_self] using alike k
      obtain ⟨_, rising, rest_wf⟩ := Memory.wf_cons.1 canonical
      obtain ⟨_, rising', rest_wf'⟩ := Memory.wf_cons.1 canonical'
      refine congrArg _ (ih rest_wf rest_wf' fun a => ?_)
      by_cases head : a = k
      · rw [head, Memory.read_of_below rising, Memory.read_of_below rising']
      · simpa only [Memory.read_cons_of_ne head] using alike a

/-- Settles O14: the cells are found one after the other from what the memory reads. -/
theorem equalMemoriesAreEqualData : Obligations.EqualMemoriesAreEqualData :=
  fun _ _ canonical canonical' alike => Memory.eq_of_read canonical canonical' alike

end Sys2Proof.Machine
end

section
/-! PROOFS. What each instruction does when it completes, and where an access traps (41_upper_immediate.md,
42_control_transfer.md, 43_integer_alu.md, 44_load_store.md, 45_misc_system.md), and that a step is the decoded instruction
(40_execution_cycle.md R86). -/

namespace Sys2Proof.Machine

/-! ## Upper immediates and jumps -/

/-- Settles O17: both instructions are a writeback of their result. -/
theorem upperImmediatesComplete : Obligations.UpperImmediatesComplete := by
  intro s rd imm20
  rw [← immUWord_eq]
  exact ⟨⟨_, exec_lui s rd imm20, wroteReg_result ..⟩, ⟨_, exec_auipc s rd imm20, wroteReg_result ..⟩⟩

/-- Settles O18: both instructions are a writeback with the link, the target formed before it. -/
theorem jumpsCompleteAndLink : Obligations.JumpsCompleteAndLink := by
  intro s rd rs1 offset imm funct3
  exact ⟨⟨_, exec_jal s rd offset, wroteReg_link ..⟩, ⟨_, exec_jalr s rd rs1 imm funct3, wroteReg_link ..⟩⟩

/-! ## Branches -/

/-- The BRANCH stage of a supported selector writes the pc by its predicate. -/
theorem branchStage_wrote_ite {funct3 : BitVec 3} (not010 : funct3 ≠ 0b010#3) (not011 : funct3 ≠ 0b011#3)
    {rs1 rs2 : RegIdx} {s : State} {taken : Prop} [Decidable taken]
    (predicate : branchTaken funct3 (s.readReg rs1) (s.readReg rs2) ↔ taken) (offset : BitVec 13) :
    ∃ t, branchStage funct3 rs1 rs2 offset s = .next t ∧
      WrotePcOnly s t (if taken then branchTarget s offset else s.pc + 4#32) := by
  obtain ⟨t, completes, yes, no⟩ := branchStage_wrote not010 not011 rs1 rs2 offset s
  rw [predicate] at yes no
  refine ⟨t, completes, ?_⟩
  split_ifs with h
  · exact yes h
  · exact no h

/-- Settles O19: each branch is the BRANCH stage of its selector, whose predicate is R104's to R109's. -/
theorem branchesComplete : Obligations.BranchesComplete := by
  intro s rs1 rs2 offset x y taken next
  have stage {funct3 : BitVec 3} (not010 : funct3 ≠ 0b010#3) (not011 : funct3 ≠ 0b011#3) {p : Prop} [Decidable p]
      (predicate : branchTaken funct3 x y ↔ p) := branchStage_wrote_ite not010 not011 predicate offset
  refine ⟨?beq, ?bne, ?blt, ?bge, ?bltu, ?bgeu⟩
  case beq => exact stage (funct3 := 0b000#3) (by decide) (by decide) (by simp [branchTaken])
  case bne =>
    rw [← ite_not]
    exact stage (funct3 := 0b001#3) (by decide) (by decide) (by simp [branchTaken])
  case blt => exact stage (funct3 := 0b100#3) (by decide) (by decide) (by simp [branchTaken])
  case bge =>
    rw [← ite_not]
    exact stage (funct3 := 0b101#3) (by decide) (by decide) (by simp [branchTaken])
  case bltu => exact stage (funct3 := 0b110#3) (by decide) (by decide) (by simp [branchTaken])
  case bgeu =>
    rw [← ite_not]
    exact stage (funct3 := 0b111#3) (by decide) (by decide) (by simp [branchTaken])

/-! ## Arithmetic -/

/-- Settles O20: each instruction is the OP stage of its selector, and the value that of R115 to R122. -/
theorem registerAluCompletes : Obligations.RegisterAluCompletes := by
  intro s rd rs1 rs2 funct7 x y
  have stage (funct3 : BitVec 3) (alternate : Bool) := opStage_wrote funct3 alternate rd rs1 rs2 s
  exact ⟨stage 0b000#3 false, stage 0b000#3 true, stage 0b001#3 (altOp funct7), stage 0b010#3 (altOp funct7),
    stage 0b011#3 (altOp funct7), stage 0b100#3 (altOp funct7), stage 0b101#3 false, stage 0b101#3 true,
    stage 0b110#3 (altOp funct7), stage 0b111#3 (altOp funct7)⟩

/-! ### Shifts by an immediate: the amount is shamt, whatever the bits above it (R141 to R143) -/

section
variable (rd rs1 : RegIdx) (shamt : BitVec 5) (funct7 : BitVec 7) (s : State)

theorem exec_slli_eq_retire :
    exec (.slli rd rs1 shamt funct7) s = retire (.result rd (s.readReg rs1 <<< shamt.toNat)) s := by
  rw [exec_slli, opImmStage, arith_sll, shiftImm_amount]

theorem exec_srli_eq_retire :
    exec (.srli rd rs1 shamt funct7) s = retire (.result rd (s.readReg rs1 >>> shamt.toNat)) s := by
  rw [exec_srli, opImmStage, arith_srl, shiftImm_amount]

theorem exec_srai_eq_retire :
    exec (.srai rd rs1 shamt) s = retire (.result rd ((s.readReg rs1).sshiftRight shamt.toNat)) s := by
  rw [exec_srai, opImmStage, arith_sra, shiftImm_amount]
end

/-- Settles O21: each instruction is the OP-IMM stage of its selector, a shift's amount being shamt. -/
theorem immediateAluCompletes : Obligations.ImmediateAluCompletes := by
  intro s rd rs1 imm shamt funct7 x y
  have stage (funct3 : BitVec 3) :=
    opImmStage_wrote funct3 (altOpImm funct3 (imm.extractLsb' 5 7)) rd rs1 (imm12Word imm) s
  refine ⟨?addi, ?slti, ?sltiu, ?xori, ?ori, ?andi, ?slli, ?srli, ?srai⟩
  case addi => exact stage 0b000#3
  case slti =>
    rw [← imm12Word_toInt imm]
    exact stage 0b010#3
  case sltiu => exact stage 0b011#3
  case xori => exact stage 0b100#3
  case ori => exact stage 0b110#3
  case andi => exact stage 0b111#3
  case slli => exact ⟨_, exec_slli_eq_retire rd rs1 shamt funct7 s, wroteReg_result ..⟩
  case srli => exact ⟨_, exec_srli_eq_retire rd rs1 shamt funct7 s, wroteReg_result ..⟩
  case srai => exact ⟨_, exec_srai_eq_retire rd rs1 shamt s, wroteReg_result ..⟩

/-! ## Loads and stores -/

/-- Settles O22: each load is the LOAD stage of its funct3, and the value its bytes extended. -/
theorem loadsComplete : Obligations.LoadsComplete := by
  intro s rd rs1 imm ea b inside
  have stage {funct3 : BitVec 3} {width : Width} {signed : Bool} {v : Word}
      (recognised : loadWidth funct3 = some (width, signed))
      (value : extendLoad signed width (leWord (b 0) (b 1) (b 2) (b 3) &&& width.mask) = v) :
      ∃ t, loadStage Config.reference funct3 rd rs1 imm s = .next t ∧ WroteReg s t rd v (s.pc + 4#32) :=
    value ▸ loadStage_wrote recognised rd rs1 imm s inside
  have ⟨lb, lh, lw⟩ := extendLoad_word (b 0) (b 1) (b 2) (b 3) true
  have ⟨lbu, lhu, _⟩ := extendLoad_word (b 0) (b 1) (b 2) (b 3) false
  exact ⟨stage (funct3 := 0b000#3) rfl lb, stage (funct3 := 0b001#3) rfl lh, stage (funct3 := 0b010#3) rfl lw,
    stage (funct3 := 0b100#3) rfl lbu, stage (funct3 := 0b101#3) rfl lhu⟩

/-- Settles O23: each store is the STORE stage of its funct3. -/
theorem storesComplete : Obligations.StoresComplete := by
  intro s rs2 rs1 imm canonical ea v
  exact ⟨storeStage_wrote (f := 0b000#3) (w := .byte) rfl rs2 rs1 imm canonical,
    storeStage_wrote (f := 0b001#3) (w := .half) rfl rs2 rs1 imm canonical,
    storeStage_wrote (f := 0b010#3) (w := .word) rfl rs2 rs1 imm canonical⟩

/-- Where the four bytes at the address do not all lie in the window, the LOAD stage raises OutOfBounds. -/
theorem loadStage_of_not_inBounds {c : Config} {s : State} {funct3 : BitVec 3} {width : Width} {signed : Bool}
    {rs1 : RegIdx} {imm : BitVec 12} (recognised : loadWidth funct3 = some (width, signed))
    (outside : inBounds c (effectiveAddress s rs1 imm).toNat 4 = false) (rd : RegIdx) :
    loadStage c funct3 rd rs1 imm s = .fault (.outOfBounds (effectiveAddress s rs1 imm).toNat 4) := by
  rcases loadStage_cases c recognised rd rs1 imm s with ⟨inside, _⟩ | ⟨_, raised⟩
  · cases inside.symm.trans outside
  · exact raised

/-- Settles O24: every load is the LOAD stage of a recognised width, and each store the STORE stage of its own. -/
theorem accessesOutsideTheWindowFault : Obligations.AccessesOutsideTheWindowFault := by
  intro s rd rs2 rs1 imm ea
  refine ⟨fun outside => ?_, fun outside => ?_, fun outside => ?_, fun outside => ?_⟩
  · have load {funct3 : BitVec 3} {width : Width} {signed : Bool}
        (recognised : loadWidth funct3 = some (width, signed)) := loadStage_of_not_inBounds recognised outside rd
    simp only [List.forall_mem_cons]
    exact ⟨load (funct3 := 0b000#3) rfl, load (funct3 := 0b001#3) rfl, load (funct3 := 0b010#3) rfl,
      load (funct3 := 0b100#3) rfl, load (funct3 := 0b101#3) rfl, fun _ none => absurd none List.not_mem_nil⟩
  · exact storeStage_of_not_inBounds (funct3 := 0b000#3) (width := .byte) rfl outside rs2
  · exact storeStage_of_not_inBounds (funct3 := 0b001#3) (width := .half) rfl outside rs2
  · exact storeStage_of_not_inBounds (funct3 := 0b010#3) (width := .word) rfl outside rs2

/-! ## The sentinel, and the ignored fields -/

/-- Settles O27: the state left differs in the returned value alone, so that the next step fetches the sentinel again. -/
theorem sentinelStopsAndStopsAgain : Obligations.SentinelStopsAndStopsAgain := by
  intro s rd rs1
  refine ⟨{ s with signal := .stop }, exec_sentinel s rd rs1, rfl, sameMachine_signal s .stop, ?_⟩
  intro w ready fetched decoded
  exact ⟨by rw [step_of_fetch ready fetched, decoded]; rfl,
    by rw [step_of_fetch (s := { s with signal := .stop }) ready fetched, decoded]; rfl⟩

/-- Settles O29: the ignored fields reach no stage, or only the ALU's flag under a selector that does not look at it, or the
bits above a shift amount. -/
theorem ignoredFieldsDoNotMatter : Obligations.IgnoredFieldsDoNotMatter := by
  intro s rd rs1 rs2 rd' rs1' shamt imm imm' f f' g g'
  have slli : exec (.slli rd rs1 shamt g) s = exec (.slli rd rs1 shamt g') s := by
    rw [exec_slli_eq_retire, exec_slli_eq_retire]
  have srli : exec (.srli rd rs1 shamt g) s = exec (.srli rd rs1 shamt g') s := by
    rw [exec_srli_eq_retire, exec_srli_eq_retire]
  exact ⟨rfl, rfl, rfl, rfl, rfl, rfl, rfl, rfl, rfl, rfl, rfl, rfl, rfl, slli, srli⟩

/-! ## The step -/

/-- Settles O39: the four bytes are the word fetch reads, whose instruction is well-formed by O2. -/
theorem stepRunsTheDecodedInstruction : Obligations.StepRunsTheDecodedInstruction := by
  intro s ready
  refine ⟨fun inside i rest decoded => ?_, fun outside => ?_⟩
  · obtain ⟨rfl, _⟩ : decodeWord Config.reference (s.mem.word s.pc.toNat) = i ∧ [] = rest :=
      Prod.mk.inj (Except.ok.inj decoded)
    exact ⟨(encodeOfDecodeIsTheWord _ _).1, step_of_fetch ready (Memory.readWord_of_inBounds inside s.mem)⟩
  · exact step_of_fetch_error ready (Memory.readWord_of_not_inBounds outside s.mem)

end Sys2Proof.Machine
end

section
/-! PROOFS. What a completed step leaves as it was (10_state.md, 20_memory.md): the latch, the events, the bytes no store
writes, and the invariant. -/

namespace Sys2Proof.Machine

/-! ## The latch and the events -/

section
variable {w : Word} {s t : State}

theorem Completes.status_eq {i : Instr} (h : Completes i s t) : t.status = s.status := by
  cases h with
  | wrote | stored | reported => exact State.writeback_status _ _
  | stopped => rfl

/-- A completed step adds no event, or, on an environment call, x3. -/
theorem StepDid.reports (h : StepDid w s t) :
    t.reports = s.reports ∨
      (opcodeOf w = OpcodeClass.system.bits ∧ isEcall Config.reference w = true ∧ (s.readReg 3#5).toNat ≤ 1 ∧
        t.reports = s.reports ++ [s.readReg 3#5]) := by
  cases h with
  | result | jal | jalr | taken | notTaken | store | noOp => exact .inl (State.writeback_reports _ _)
  | report op _ ecall le => exact .inr ⟨op, ecall, le, State.writeback_reports _ _⟩
  | stop => exact .inl rfl

/-- What a step that completes did with the word it is known to have fetched. -/
theorem step_did_fetched (fetched : fetch Config.reference s = .ok w) (completed : step s = .next t) : StepDid w s t := by
  obtain ⟨w', _, fetched', did⟩ := step_did completed
  obtain rfl : w = w' := Except.ok.inj (fetched.symm.trans fetched')
  exact did
end

/-- Settles O48: a step that completes ran an instruction, and no instruction that completes writes the latch. -/
theorem completedStepsLeaveTheLatchReady : Obligations.CompletedStepsLeaveTheLatchReady := by
  intro s t completed
  obtain ⟨w, ready, _, executed⟩ := step_next_inv completed
  exact ⟨ready, (exec_completes executed).status_eq.trans ready⟩

/-- Settles O47: only the environment call's writeback is that of a state with an event added. -/
theorem onlyEnvironmentCallsReport : Obligations.OnlyEnvironmentCallsReport :=
  fun _ _ _ fetched completed => (step_did_fetched fetched completed).reports

/-! ## The bytes a step leaves -/

/-- A store's width in bytes is the power of two of its funct3 (44_load_store.md R151 to R153). -/
theorem storeWidth_bytes : ∀ {funct3 : BitVec 3} {width : Width}, storeWidth funct3 = some width →
    width.bytes = 2 ^ funct3.toNat := by
  intro funct3 width recognised
  rcases selector_cases funct3 with rfl | rfl | rfl | rfl | rfl | rfl | rfl | rfl <;> cases recognised <;> rfl

section
variable {w : Word} {s t : State} (h : StepDid w s t)
include h

/-- A completed step leaves memory as it is, or, on a store, writes the bytes of its width in bounds. -/
theorem StepDid.mem_cases :
    t.mem = s.mem ∨
      ∃ width, opcodeOf w = OpcodeClass.store.bits ∧ storeWidth (funct3Of w) = some width ∧
        inBounds Config.reference (effectiveAddress s (rs1Of w) (immSOf w)).toNat width.bytes = true ∧
        t.mem = s.mem.writeAll (effectiveAddress s (rs1Of w) (immSOf w)).toNat
          (leBytes width.bytes (s.readReg (rs2Of w))) := by
  cases h with
  | result | jal | jalr | taken | notTaken | noOp | report => exact .inl (State.writeback_mem _ _)
  | store op width recognised inside => exact .inr ⟨width, op, recognised, inside, State.writeback_mem _ _⟩
  | stop => exact .inl rfl

theorem StepDid.slot_zero : t.regs[0] = s.regs[0] := by
  cases h with
  | result | jal | jalr | taken | notTaken | store | noOp | report => exact State.writeback_slot_zero _ _
  | stop => rfl

/-- A completed step keeps the invariant: a store writes in the window, and no writeback reaches slot 0. -/
theorem StepDid.keeps_inv (inv : s.Inv Config.reference) : t.Inv Config.reference := by
  obtain ⟨slot_zero, canonical, within⟩ := inv
  have slot : t.regs[0] = 0#32 := h.slot_zero.trans slot_zero
  rcases h.mem_cases with same | ⟨width, _, _, inside, stored⟩
  · exact ⟨slot, same ▸ canonical, same ▸ within⟩
  · obtain ⟨lo, hi⟩ := inBounds_iff.1 inside
    exact ⟨slot, stored ▸ Memory.writeAll_wf canonical _ _,
      stored ▸ Memory.writeAll_within within lo (by rwa [leBytes_length])⟩
end

/-- Settles O45: memory is written by a store alone, and its bytes are as many as its funct3 says. -/
theorem onlyStoresChangeMemory : Obligations.OnlyStoresChangeMemory := by
  intro s t w canonical fetched completed
  rcases (step_did_fetched fetched completed).mem_cases with same | ⟨width, op, recognised, _, stored⟩
  · rw [same]
    exact ⟨fun _ _ => rfl, fun _ _ _ => rfl⟩
  · refine ⟨fun other => absurd op other, fun _ a outside => ?_⟩
    rw [stored]
    exact Memory.read_writeAll_outside canonical (by rwa [leBytes_length, storeWidth_bytes recognised])

/-! ## The invariant -/

/-- Settles O51: each of the things a completed step can do keeps the invariant. -/
theorem stepKeepsTheInvariant : Obligations.StepKeepsTheInvariant := by
  intro s t inv completed
  obtain ⟨w, _, _, did⟩ := step_did completed
  exact did.keeps_inv inv

end Sys2Proof.Machine
end

section
/-! PROOFS. The host's operations (70_reset_and_hazards.md): reset, the loader's write, dump, the driver's boot, and the
invariant they all keep. -/

namespace Sys2Proof.Machine

/-! ## Reset (R178 to R180) -/

@[simp] theorem State.reset_readReg (r : RegIdx) : State.reset.readReg r = 0#32 := by
  rw [State.readReg]
  split_ifs
  · rfl
  · exact Vector.getElem_replicate _

/-- Settles O54: reset's state does not depend on the state before, and its registers are 32 zeros. -/
theorem resetZeroesEverything : Obligations.ResetZeroesEverything :=
  fun _ => ⟨rfl, State.reset_readReg, rfl, fun _ => rfl, rfl, rfl, rfl⟩

/-- Settles O55: address 0 lies below the window, so that the fetch fails. -/
theorem stepAfterResetIsOutOfBounds : Obligations.StepAfterResetIsOutOfBounds :=
  step_of_fetch_error rfl (Memory.readWord_of_not_inBounds (by decide) State.reset.mem)

theorem State.reset_inv : State.reset.Inv Config.reference where
  slot_zero := Vector.getElem_replicate _
  mem_wf := rfl
  mem_within := rfl

/-- Settles O52: the registers are 32 zeros, and memory lists nothing. -/
theorem resetMeetsTheInvariant : Obligations.ResetMeetsTheInvariant := State.reset_inv

/-! ## The loader's write (R182) -/

/-- Everything the host's write can answer. -/
theorem hostCall_writeBytes_cases (addr : Nat) (bytes : List Byte) (s : State) :
    (inBounds Config.reference addr bytes.length = true ∧
        hostCall (.writeBytes addr bytes) s = (s.setMem (s.mem.writeAll addr bytes), .done)) ∨
      (inBounds Config.reference addr bytes.length = false ∧
        hostCall (.writeBytes addr bytes) s =
          (s.latchFault (.outOfBounds addr bytes.length), .failed (.outOfBounds addr bytes.length))) := by
  unfold hostCall
  rcases hostWriteBytes_cases Config.reference addr bytes s with ⟨inside, stored⟩ | ⟨outside, failed⟩
  · exact .inl ⟨inside, by simp only [stored]⟩
  · exact .inr ⟨outside, by simp only [failed]⟩

/-- Settles O57: in bounds the write is that of memory alone, and out of bounds it only latches. -/
theorem loaderWriteStoresOrLatches : Obligations.LoaderWriteStoresOrLatches := by
  intro s addr bytes canonical
  rcases hostCall_writeBytes_cases addr bytes s with ⟨inside, stored⟩ | ⟨outside, failed⟩
  · exact ⟨fun _ => ⟨_, stored, fun _ => rfl, rfl, rfl, Memory.read_writeAll canonical addr bytes⟩,
      fun outside => absurd (inside.symm.trans outside) (by decide)⟩
  · exact ⟨fun inside => absurd (inside.symm.trans outside) (by decide), fun _ => failed⟩

/-! ## The driver's boot (R186, R187) -/

section
variable {segments : List (Nat × List Byte)}
  (inside : ∀ seg ∈ segments, inBounds Config.reference seg.1 seg.2.length = true)
include inside

/-- A byte of a segment that no later segment covers is that segment's after loading. -/
theorem loadSegments_read {earlier later : List (Nat × List Byte)} {addr : Nat} {bytes : List Byte}
    (order : segments = earlier ++ (addr, bytes) :: later) {s : State} (canonical : s.mem.wf = true) {j : Nat}
    (hj : j < bytes.length) (uncovered : ∀ seg ∈ later, addr + j < seg.1 ∨ seg.1 + seg.2.length ≤ addr + j) :
    (loadSegments segments s).mem.read (addr + j) = bytes[j] := by
  subst order
  rw [List.forall_mem_append, List.forall_mem_cons] at inside
  obtain ⟨earlier_inside, this_inside, later_inside⟩ := inside
  have ⟨_, _, wf, _⟩ := loadSegments_frame earlier_inside canonical
  rw [loadSegments_append earlier_inside, loadSegments_cons this_inside]
  have ⟨_, _, _, frame⟩ := loadSegments_frame later_inside
    (s := (loadSegments earlier s).setMem ((loadSegments earlier s).mem.writeAll addr bytes))
    (Memory.writeAll_wf wf addr bytes)
  rw [frame _ uncovered, State.setMem_mem, Memory.read_writeAll_inside wf hj]
end

/-- Reading a register depends on the register file alone. -/
theorem State.readReg_congr {s t : State} (regs : t.regs = s.regs) (r : RegIdx) : t.readReg r = s.readReg r := by
  simp only [State.readReg, regs]

/-- Settles O58: loading keeps reset's registers and latch and the bytes in no segment, and the pc is set last. -/
theorem bootedProgramStartsClean : Obligations.BootedProgramStartsClean := by
  intro s segments inside
  have ⟨regs, status, _, frame⟩ := loadSegments_frame inside (s := State.reset) rfl
  refine ⟨fun r => ?_, rfl, status, fun earlier later addr bytes order j hj uncovered => ?_, fun a uncovered => ?_⟩
  · exact (State.readReg_congr regs r).trans (State.reset_readReg r)
  · exact loadSegments_read inside order rfl hj uncovered
  · exact frame a uncovered

/-! ## Dump (R183) -/

/-- Settles O59: there are as many names as registers, so that pairing loses no value. -/
theorem dumpShowsRegistersAndPc : Obligations.DumpShowsRegistersAndPc := by
  intro s
  have names : abiNames.length = 32 := rfl
  exact ⟨rfl, rfl, List.map_snd_zip (by rw [List.length_map, List.length_range, names])⟩

/-! ## The invariant over every operation (R185) -/

section
variable {c : Config} {s t : State}

/-- The invariant reads the registers and memory alone. -/
theorem State.Inv.of_eq (inv : s.Inv c) (regs : t.regs = s.regs) (mem : t.mem = s.mem) : t.Inv c where
  slot_zero := by rw [getElem_congr_coll regs]; exact inv.slot_zero
  mem_wf := mem ▸ inv.mem_wf
  mem_within := mem ▸ inv.mem_within

theorem State.Inv.setMem_writeAll (inv : s.Inv c) {addr : Nat} {bytes : List Byte}
    (inside : inBounds c addr bytes.length = true) : (s.setMem (s.mem.writeAll addr bytes)).Inv c where
  slot_zero := inv.slot_zero
  mem_wf := Memory.writeAll_wf inv.mem_wf addr bytes
  mem_within := Memory.writeAll_within inv.mem_within (inBounds_iff.1 inside).1 (inBounds_iff.1 inside).2

theorem hostStep_keeps_inv (inv : s.Inv Config.reference) : (hostStep s).1.Inv Config.reference := by
  cases answer : step s with
  | next t => simpa only [hostStep, answer] using stepKeepsTheInvariant s t inv answer
  | fault f => simpa only [hostStep, answer] using inv.of_eq (s.latchFault_regs f) (s.latchFault_mem f)
  | refused r => simpa only [hostStep, answer] using inv

theorem hostCall_keeps_inv (op : HostCall) (inv : s.Inv Config.reference) : (hostCall op s).1.Inv Config.reference := by
  cases op with
  | reset => exact State.reset_inv
  | getPC | dump => exact inv
  | setPC addr => exact inv.of_eq (s.setPc_regs _) (s.setPc_mem _)
  | writeBytes addr bytes =>
    rcases hostCall_writeBytes_cases addr bytes s with ⟨inside, stored⟩ | ⟨_, failed⟩
    · rw [stored]; exact inv.setMem_writeAll inside
    · rw [failed]; exact inv.of_eq rfl rfl
  | step => exact hostStep_keeps_inv inv
end

/-- Settles O53: each operation keeps the invariant, and reset, where every run begins, meets it. -/
theorem hostOperationsKeepTheInvariant : Obligations.HostOperationsKeepTheInvariant := by
  refine ⟨fun op s inv => hostCall_keeps_inv op inv, fun s reachable => ?_⟩
  induction reachable with
  | reset => exact State.reset_inv
  | call op _ inv => exact hostCall_keeps_inv op inv

end Sys2Proof.Machine
end
